-- ==== Sys2Proof/Word.lean ====
section
/-! DEFINITION. The byte, and the finite byte sequences the block takes in and hands out (00_scope.md R10). -/

namespace Sys2Proof

/-- A byte or cell: 8 bits, bit 0 the least significant (00_scope.md R10). -/
abbrev Byte := BitVec 8

/-- A framed command packet as the command port delivers it, `B[0]` first (30_encoding.md R81). -/
abbrev Packet := List Byte

end Sys2Proof
end

