-- ==== Sys2Proof/Config.lean ====
section
/-! DEFINITION. What is fixed for the life of the block (00_scope.md R8, R9; 10_state.md R29), and the free values.
An `opaque` constant has no body: a claim that uses it is true whatever its value is. -/

namespace Sys2Proof

/-- The payload of a TransportError, which the block never inspects (00_scope.md R9, 93 U7). DESIGN CHOICE (log 6): a value is
the byte sequence that encodes it in a response. -/
structure TransportErrorInfo where
  bytes : List Byte
  deriving DecidableEq, Repr, Inhabited

/-- The Bus Transport's answer to one TxExec (10_state.md R30). -/
inductive BusAnswer where
  | ok
  | err (e : TransportErrorInfo)
  deriving DecidableEq, Repr, Inhabited

/-- The opaque value `P_ADDR` is of this type (00_scope.md R9): nothing looks inside it. -/
structure PeripheralAddress where
  value : Nat
  deriving DecidableEq, Repr, Inhabited

/-- The opaque value `TIMEOUT` is of this type (60_exceptions.md R213): nothing looks inside it. -/
structure TransactionTimeout where
  value : Nat
  deriving DecidableEq, Repr, Inhabited

/-- The twelve power-on configuration commands (42_init_protocol.md R153). -/
inductive InitCommand where
  | multiplexRatio
  | displayOffset
  | startLine
  | segmentRemap
  | comScanDirection
  | comPinLayout
  | contrastLevel
  | entireDisplayOff
  | normalPolarity
  | oscillator
  | chargePumpEnable
  | displayOn
  deriving DecidableEq, Repr

/-- The geometry, fixed at construction (00_scope.md R8): the configuration fields with their defaults, which are the values of this
hardware (decision D2), and the constraints every geometry meets. -/
structure Geometry where
  /-- `WIDTH`, the number of columns. -/
  width : Nat := 128
  /-- `PAGE_COUNT`, the number of pages. -/
  pageCount : Nat := 8
  /-- `WIDTH >= 1`. -/
  width_pos : 1 ≤ width := by decide
  /-- `PAGE_COUNT >= 1`. -/
  pageCount_pos : 1 ≤ pageCount := by decide
  /-- `PAGE_COUNT <= 8`. -/
  pageCount_le : pageCount ≤ 8 := by decide
  deriving DecidableEq, Repr

/-- `HEIGHT = PAGE_COUNT * 8`, the number of pixel rows (00_scope.md R8). -/
def Geometry.height (g : Geometry) : Nat := g.pageCount * 8

namespace Config

/-! ### Geometry (00_scope.md R8, log 1) -/

/-- The geometry this block is configured with: every field at its default. The one place where a geometry is chosen. -/
def geometry : Geometry := {}

/-- `WIDTH`. -/
def width : Nat := geometry.width

/-- `PAGE_COUNT`. -/
def pageCount : Nat := geometry.pageCount

/-- `HEIGHT`. -/
def height : Nat := geometry.height

/-- The number of cells of FB. -/
def cellCount : Nat := pageCount * width

/-- `OPW`: the width in bits of an operand of a command packet (00_scope.md R9, decision D7). -/
def operandBits : Nat := 8

/-! ### The glyph source (00_scope.md R9, 41_drawing_engine.md R142; OPEN, log 5) -/

/-- `GLYPH_WIDTH - 1`, so that `GLYPH_WIDTH >= 1` holds by construction. -/
opaque glyphWidthLessOne : Nat

/-- `GLYPH_WIDTH`: the columns one character occupies. -/
def glyphWidth : Nat := glyphWidthLessOne + 1

/-- The glyph table at a positive code, column by column. -/
opaque glyphColumn : Int → Nat → Byte

/-- `BLANK`, column by column. -/
opaque blankColumn : Nat → Byte

/-- Column `i` of `GLYPH(code)`; every code that is not positive gives `BLANK` (R9). -/
def glyphByte (code : Int) (i : Nat) : Byte :=
  if code ≤ 0 then blankColumn i else glyphColumn code i

/-- `BLANK`. -/
def blank : List Byte := (List.range glyphWidth).map blankColumn

/-- `GLYPH(code)`: exactly `GLYPH_WIDTH` bytes. -/
def glyph (code : Int) : List Byte := (List.range glyphWidth).map (glyphByte code)

/-! ### The wire (00_scope.md R9, 30_encoding.md R92 to R94; OPEN, log 2, log 3, log 4) -/

/-- `P_ADDR`, passed to every TxExec. -/
opaque peripheralAddress : PeripheralAddress

/-- `TIMEOUT`, passed to every TxExec (60_exceptions.md R213). -/
opaque timeout : TransactionTimeout

/-- `ACK_REQ`, passed with every TxWrite. -/
opaque ackRequired : Bool

/-- `ADDR_BYTE`. -/
opaque addrByte : Byte

/-- The free value behind the three markers. Every three pairwise distinct bytes are the images of three bytes under a permutation,
so this leaves the markers free but for the constraint of 30_encoding.md R94 that they be pairwise distinct (DEDUCED, log 2). -/
opaque markerPerm : Equiv.Perm Byte

/-- `M_CMD_STREAM`, INIT's command-mode marker. -/
def markerCmdStream : Byte := markerPerm 0

/-- `M_CMD_SINGLE`, REFRESH's single-command-mode marker. -/
def markerCmdSingle : Byte := markerPerm 1

/-- `M_DATA`, REFRESH's data-mode marker. -/
def markerData : Byte := markerPerm 2

/-- The free value behind `PAGE_CMD`. Every injective map of the page indices into the bytes is a permutation of the bytes
restricted to them, so this leaves `PAGE_CMD` free but for its injectivity (DEDUCED, log 3). -/
opaque pageCmdPerm : Equiv.Perm Byte

/-- `PAGE_CMD(p)`, meant for `p < PAGE_COUNT` only. -/
def pageCmd (p : Nat) : Byte := pageCmdPerm (BitVec.ofNat 8 p)

/-- The bytes of each configuration command but the last. -/
opaque initCommandBytes : InitCommand → List Byte

/-- The first byte of the display-on command. -/
opaque displayOnFirst : Byte

/-- The display-on command's further bytes, if any. -/
opaque displayOnRest : List Byte

/-- The encoding of one configuration command; only the last is known not to be empty, which gives `N_INIT >= 1` (log 4). -/
def initCommand : InitCommand → List Byte
  | .displayOn => displayOnFirst :: displayOnRest
  | c => initCommandBytes c

/-- The order of the twelve commands; display-on is the last (42_init_protocol.md R153). -/
def initOrder : List InitCommand :=
  [.multiplexRatio, .displayOffset, .startLine, .segmentRemap, .comScanDirection, .comPinLayout, .contrastLevel,
   .entireDisplayOff, .normalPolarity, .oscillator, .chargePumpEnable, .displayOn]

/-- `INIT_CMDS`. -/
def initCmds : List Byte := initOrder.flatMap initCommand

/-- `N_INIT`. -/
def initLength : Nat := initCmds.length

/-! ### Free values -/

/-- What each cell of FB, by its enumeration index, holds after reset (10_state.md R35, 93 U4, log 7). -/
opaque resetCell : Nat → Byte

/-- What each cell of the ghost display shows after reset (10_state.md R33, R35, log 13). -/
opaque resetDisplayCell : Nat → Byte

/-- What a cell of the ghost display shows once its content is unspecified (93 U5, U8): a fresh value for each event (the first
argument) and cell (the second), log 13. -/
opaque freeDisplayCell : Nat → Nat → Byte

/-- The Bus Transport's answers once the list of answers in the state is used up (10_state.md R30, log 11). -/
opaque busAnswer : Nat → BusAnswer

end Config

end Sys2Proof
end

