-- ==== Sys2Proof/Syntax.lean ====
section
/-! DEFINITION. The eight host commands with their decoded operands (00_scope.md R6, 30_encoding.md R82 to R84): one constructor
per row of spec/opcode_table.json. Operands are mathematical integers and never negative (20_memory.md R56, decision D7). -/

namespace Sys2Proof

inductive Instr where
  /-- INIT (42_init_protocol.md R151). -/
  | init
  /-- CLEAR (40_framebuffer_ops.md R111). -/
  | clear
  /-- DRAW_PIXEL (40_framebuffer_ops.md R112). -/
  | drawPixel (x y : Nat) (on : Bool)
  /-- DRAW_HLINE (41_drawing_engine.md R131). -/
  | drawHline (x y length : Nat) (on : Bool)
  /-- DRAW_RECT (41_drawing_engine.md R133). -/
  | drawRect (x y width height : Nat) (on filled : Bool)
  /-- DRAW_TEXT (41_drawing_engine.md R140); the count `n` is the length of `chars`. -/
  | drawText (row column : Nat) (chars : List Byte) (on : Bool)
  /-- REFRESH (43_refresh_fsm.md R166). -/
  | refresh
  /-- READ_CELL (40_framebuffer_ops.md R114). -/
  | readCell (page col : Nat)
  deriving DecidableEq, Repr

end Sys2Proof
end

