-- ==== Sys2Proof/WellFormed.lean ====
section
/-! DEFINITION. Which terms a command packet can carry: each operand is one unsigned byte, and a text has at most 255 characters
(30_encoding.md R82, R83, R86). -/

namespace Sys2Proof

/-- The operand fits the `OPW` bits the packet gives it (30_encoding.md R83). -/
def operandFits (v : Nat) : Bool := decide (v < 2 ^ Config.operandBits)

/-- The command has a packet. -/
def Instr.wellFormed : Instr → Bool
  | .init => true
  | .clear => true
  | .drawPixel x y _ => operandFits x && operandFits y
  | .drawHline x y length _ => operandFits x && operandFits y && operandFits length
  | .drawRect x y width height _ _ => operandFits x && operandFits y && operandFits width && operandFits height
  | .drawText row column chars _ => operandFits row && operandFits column && operandFits chars.length
  | .refresh => true
  | .readCell page col => operandFits page && operandFits col

end Sys2Proof
end

