-- ==== Sys2Proof/Decode.lean ====
section
/-! DEFINITION. Decoding a command packet (30_encoding.md R81 to R86), total on any bytes, each illegal packet rejected under the
name of the first test of R85 it fails; then the encoder; then the form in which the host's opcode table hands over a packet. -/

namespace Sys2Proof

/-- The tests of 30_encoding.md R85, in its order. -/
inductive DecodeError where
  /-- Test 1: there is no opcode byte. -/
  | noOpcodeByte
  /-- Test 2: OPC is 0x0 or 0x9 to 0xF. -/
  | reservedOpcode
  /-- Test 3: RSV is not 0b00. -/
  | reservedBits
  /-- Test 4: F = 1 and the command is not DRAW_RECT. -/
  | filledFlag
  /-- Test 5: ON = 1 and the command has no `on` operand. -/
  | onFlag
  /-- Test 6: the packet does not have the length its format requires. -/
  | wrongLength
  deriving DecidableEq, Repr

/-- The opcode map's commands (30_encoding.md R84), before their operands are read. -/
inductive Opcode where
  | init
  | clear
  | drawPixel
  | drawHline
  | drawRect
  | drawText
  | refresh
  | readCell
  deriving DecidableEq, Repr

/-! ### Fields of the opcode byte (30_encoding.md R81) -/

/-- OPC, bits 7:4. -/
def opcField (b : Byte) : BitVec 4 := b.extractLsb' 4 4

/-- RSV, bits 3:2. -/
def rsvField (b : Byte) : BitVec 2 := b.extractLsb' 2 2

/-- F, bit 1. -/
def filledField (b : Byte) : Bool := b.getLsbD 1

/-- ON, bit 0. -/
def onField (b : Byte) : Bool := b.getLsbD 0

/-- The opcode map (30_encoding.md R84); 0x0 and 0x9 to 0xF are reserved. -/
def opcodeOf (opc : BitVec 4) : Option Opcode :=
  match opc.toNat with
  | 1 => some .init
  | 2 => some .clear
  | 3 => some .drawPixel
  | 4 => some .drawHline
  | 5 => some .drawRect
  | 6 => some .drawText
  | 7 => some .refresh
  | 8 => some .readCell
  | _ => none

/-- Commands that may have F = 1 (30_encoding.md R81). -/
def Opcode.usesFilled : Opcode → Bool
  | .drawRect => true
  | _ => false

/-- Commands that may have ON = 1 (30_encoding.md R81). -/
def Opcode.usesOn : Opcode → Bool
  | .drawPixel | .drawHline | .drawRect | .drawText => true
  | _ => false

/-- The operand bytes of a command, each read as an unsigned integer (30_encoding.md R82, R83); a list of another length than the
format's is test 6 of R85. -/
def decodeOperands (op : Opcode) (filled on : Bool) (operands : List Byte) : Except DecodeError Instr :=
  match op with
  | .init =>
    match operands with
    | [] => .ok .init
    | _ => .error .wrongLength
  | .clear =>
    match operands with
    | [] => .ok .clear
    | _ => .error .wrongLength
  | .drawPixel =>
    match operands with
    | [x, y] => .ok (.drawPixel x.toNat y.toNat on)
    | _ => .error .wrongLength
  | .drawHline =>
    match operands with
    | [x, y, length] => .ok (.drawHline x.toNat y.toNat length.toNat on)
    | _ => .error .wrongLength
  | .drawRect =>
    match operands with
    | [x, y, width, height] => .ok (.drawRect x.toNat y.toNat width.toNat height.toNat on filled)
    | _ => .error .wrongLength
  | .drawText =>
    match operands with
    | row :: column :: n :: chars =>
      if chars.length = n.toNat then .ok (.drawText row.toNat column.toNat chars on) else .error .wrongLength
    | _ => .error .wrongLength
  | .refresh =>
    match operands with
    | [] => .ok .refresh
    | _ => .error .wrongLength
  | .readCell =>
    match operands with
    | [page, col] => .ok (.readCell page.toNat col.toNat)
    | _ => .error .wrongLength

/-- Decode one packet, the tests of 30_encoding.md R85 in their order. -/
def decode (p : Packet) : Except DecodeError Instr :=
  match p with
  | [] => .error .noOpcodeByte
  | b :: operands =>
    match opcodeOf (opcField b) with
    | none => .error .reservedOpcode
    | some op =>
      if rsvField b ≠ 0 then .error .reservedBits
      else if filledField b && !op.usesFilled then .error .filledFlag
      else if onField b && !op.usesOn then .error .onFlag
      else decodeOperands op (filledField b) (onField b) operands

/-! ### The encoder (30_encoding.md R81 to R84) -/

/-- The opcode byte: OPC, RSV = 0b00, F, ON. -/
def opcodeByte (opc : BitVec 4) (filled on : Bool) : Byte :=
  opc ++ (0#2 ++ (BitVec.ofBool filled ++ BitVec.ofBool on))

/-- One operand byte. -/
def operandByte (v : Nat) : Byte := BitVec.ofNat 8 v

/-- The packet of a command; meant for well-formed commands. -/
def encode : Instr → Packet
  | .init => [opcodeByte 1 false false]
  | .clear => [opcodeByte 2 false false]
  | .drawPixel x y on => [opcodeByte 3 false on, operandByte x, operandByte y]
  | .drawHline x y length on => [opcodeByte 4 false on, operandByte x, operandByte y, operandByte length]
  | .drawRect x y width height on filled =>
    [opcodeByte 5 filled on, operandByte x, operandByte y, operandByte width, operandByte height]
  | .drawText row column chars on =>
    opcodeByte 6 false on :: operandByte row :: operandByte column :: operandByte chars.length :: chars
  | .refresh => [opcodeByte 7 false false]
  | .readCell page col => [opcodeByte 8 false false, operandByte page, operandByte col]

/-! ### Packets as the rows of the opcode table number their bits (log 17) -/

/-- The `count` low bytes of `w`, the least significant first. -/
def wordBytes : Nat → Nat → List Byte
  | 0, _ => []
  | count + 1, w => BitVec.ofNat 8 w :: wordBytes count (w / 256)

/-- The longest packet: DRAW_TEXT with 255 characters (30_encoding.md R86). -/
def longestPacket : Nat := 259

/-- The packet length the opcode byte requires, and for DRAW_TEXT the count byte with it (30_encoding.md R85 test 6, R86); a
reserved opcode requires only itself. -/
def requiredLength (stream : List Byte) : Nat :=
  match stream with
  | [] => 0
  | b :: operands =>
    match opcodeOf (opcField b) with
    | none => 1
    | some .init => 1
    | some .clear => 1
    | some .drawPixel => 3
    | some .drawHline => 4
    | some .drawRect => 5
    | some .drawText =>
      match operands with
      | _ :: _ :: n :: _ => 4 + n.toNat
      | _ => 4
    | some .refresh => 1
    | some .readCell => 3

/-- The packet whose first `nbits` bits are those of `w` and whose further bits are zero. The port frames a packet with its
length (30_encoding.md R81): here the length the command requires, or the `nbits` given where they are more. -/
def packetOfWord (nbits w : Nat) : Packet :=
  let stream := wordBytes longestPacket (w % 2 ^ nbits)
  stream.take (max (requiredLength stream) ((nbits + 7) / 8))

/-- The command the decoder reads from the packet whose bits are `w`. -/
def decodeTableWord (nbits w : Nat) : Option Instr :=
  match decode (packetOfWord nbits w) with
  | .ok i => some i
  | .error _ => none

end Sys2Proof
end

