-- ==== Sys2Proof/Machine/State.lean ====
section
/-! DEFINITION. The machine's state as plain data: everything the spec gives the block (10_state.md), the environment's inputs
(10_state.md R30, R31), and what an observer of the bus, of the responses and of the display has seen. -/

namespace Sys2Proof.Machine

/-- ST (10_state.md R23). -/
inductive SeqState where
  | idle
  | iStart
  | iAddr
  | iMark
  | iCmds
  | iStop
  | iExec
  | rStart
  | rAddr
  | rMarkCmd
  | rPageCmd
  | rMarkData
  | rData
  | rStop
  | rExec
  deriving DecidableEq, Repr

/-- The error kinds a command can end with (60_exceptions.md R200). -/
inductive ErrorKind where
  | coordinateOutOfRange
  | transportError (e : TransportErrorInfo)
  | illegalCommand
  deriving DecidableEq, Repr

/-- The one response to a command (30_encoding.md R90); READ_CELL's carries the cell's value. -/
inductive Response where
  | ok (payload : Option Byte)
  | error (kind : ErrorKind)
  deriving DecidableEq, Repr

/-- One entry of LOG: the transaction handed to the Bus Transport and its answer (10_state.md R32). -/
structure LogEntry where
  bytes : List Byte
  answer : BusAnswer
  deriving DecidableEq, Repr

/-- One call of a bus primitive with all its arguments (00_scope.md R13, 30_encoding.md R91). -/
inductive BusEvent where
  | txBegin
  | txWrite (b : Byte) (ackRequired : Bool)
  | txEnd
  | txExec (bytes : List Byte) (address : PeripheralAddress) (timeout : TransactionTimeout) (answer : BusAnswer)
  deriving DecidableEq, Repr

/-- Whether the transactions so far keep the boot order (70_reset_and_hazards.md R235, 93 U8): none but failed INITs, which the Host
repeats (R236); then an INIT answered Ok, and only REFRESHes since; anything else. A ghost: the block has no such flag
(10_state.md R28). -/
inductive BootOrder where
  | fresh
  | kept
  | broken
  deriving DecidableEq, Repr

/-- Cells by enumeration index (20_memory.md R53, log 8): indices strictly rising, no cell that holds `unlistedCell` listed. -/
abbrev Memory := List Host.Cell

/-- What a cell that is not listed holds (log 8). After reset every cell holds a free value, see `resetMemory`. -/
def unlistedCell : Byte := 0

/-- The canonical form of a memory of `cellCount` cells. -/
abbrev Memory.wf (m : Memory) : Prop :=
  m.Pairwise (fun a b => a.1 < b.1) ∧ ∀ c ∈ m, c.1 < Config.cellCount ∧ c.2 ≠ unlistedCell

/-- The canonical memory that holds `content a` in cell `a`. Irreducible, so that no elaboration lists the cells. -/
@[irreducible] def memoryOf (content : Nat → Byte) : Memory :=
  (List.range Config.cellCount).filterMap fun a =>
    if content a = unlistedCell then none else some (a, content a)

@[ext]
structure State where
  /-- FB, the framebuffer (10_state.md R21). -/
  fb : Memory
  /-- ST, the sequencer state (10_state.md R23). -/
  st : SeqState
  /-- PG, the page counter (10_state.md R24). -/
  pg : Nat
  /-- COL, the column counter (10_state.md R25). -/
  col : Nat
  /-- K, the INIT byte counter (10_state.md R26). -/
  k : Nat
  /-- TXN, the transaction under construction (10_state.md R27). -/
  txn : List Byte
  /-- Input: the packets the Host has still to present, the next one first (10_state.md R31, log 10). -/
  commands : List Packet
  /-- Input: the Bus Transport's coming answers, the next one first (10_state.md R30, log 11). -/
  answers : List BusAnswer
  /-- The model's own counter: which free answer comes next once `answers` is used up (log 11). -/
  answerIndex : Nat
  /-- LOG, ghost: the transactions executed, oldest first (10_state.md R32). -/
  log : List LogEntry
  /-- Ghost: the bus primitives called, oldest first (30_encoding.md R91, log 12). -/
  events : List BusEvent
  /-- Ghost: the responses the Host has been given, oldest first (30_encoding.md R90, log 12). -/
  responses : List Response
  /-- Ghost: the boot order (70_reset_and_hazards.md R235, log 13). -/
  boot : BootOrder
  /-- DISP, ghost: what the display shows, cell by cell (10_state.md R33, log 13). -/
  disp : Memory
  /-- The model's own counter: which free display bytes come next (log 13). -/
  freeIndex : Nat
  deriving DecidableEq, Repr

/-- Why the machine stops. No state that meets the invariant of Safety.lean reaches any of these, so each is safe (log 15). -/
inductive Fault where
  /-- Raised by FBRead, FBWrite and FBSetBit at an address outside FB, which 00_scope.md R12 asks to be a fault. Safe. -/
  | cellOutOfRange (page col : Nat)
  /-- Raised by FBSetBit at a bit number above 7 (00_scope.md R12). Safe. -/
  | bitOutOfRange (bit : Nat)
  /-- Raised in R_PAGE_CMD when PG is outside the domain of `PAGE_CMD` (00_scope.md R9). Safe. -/
  | pageOutOfRange (page : Nat)
  /-- Raised in a sequencer state to which no row of 42_init_protocol.md R152 or 43_refresh_fsm.md R167 applies: K above N_INIT,
  COL above WIDTH, or PG above PAGE_COUNT - 1 at an answer Ok. Safe. -/
  | noTransition (st : SeqState)
  deriving DecidableEq, Repr

/-- No meaning. -/
inductive Refusal where
  /-- Raised by `exec` for a command without a meaning; no arm does so. Safe. -/
  | notModelled (mnemonic : String)
  deriving DecidableEq, Repr

/-- The machine right after reset (10_state.md R35, 70_reset_and_hazards.md R230): ST is IDLE, LOG is empty, every cell of FB and
of the display holds an unknown byte (log 7, log 13). PG, COL, K and TXN are unspecified there and dead; their values here are
a DESIGN CHOICE (log 9). -/
def State.reset : State where
  fb := memoryOf Config.resetCell
  st := .idle
  pg := 0
  col := 0
  k := 0
  txn := []
  commands := []
  answers := []
  answerIndex := 0
  log := []
  events := []
  responses := []
  boot := .fresh
  disp := memoryOf Config.resetDisplayCell
  freeIndex := 0

end Sys2Proof.Machine
end

