-- ==== Sys2Proof/Machine/Flags.lean ====
section
/-! DEFINITION. The block has no flag register, no condition codes and no sticky status (10_state.md R28). What stands in their
place: the derived signal BUSY, and the bytes of a response (30_encoding.md R90). -/

namespace Sys2Proof.Machine

/-- BUSY = (ST != IDLE) (10_state.md R28). -/
def busy (s : State) : Bool := s.st != .idle

/-- The response code of an error kind (30_encoding.md R90). -/
def ErrorKind.code : ErrorKind → Byte
  | .coordinateOutOfRange => 0x01
  | .transportError _ => 0x02
  | .illegalCommand => 0x03

/-- What follows the response code (30_encoding.md R90, log 6). -/
def ErrorKind.info : ErrorKind → List Byte
  | .transportError e => e.bytes
  | .coordinateOutOfRange => []
  | .illegalCommand => []

/-- The response packet (30_encoding.md R90). -/
def Response.packet : Response → Packet
  | .ok none => [0x00]
  | .ok (some v) => [0x00, v]
  | .error kind => kind.code :: kind.info

end Sys2Proof.Machine
end

