-- ==== Sys2Proof/Machine/Operands.lean ====
section
/-! DEFINITION. Operand forms: the pixel addressing decoder PAD and its inverse (20_memory.md R51, R52), the range predicates
(R56), and the pixels or cells each command addresses (files 40 and 41). All index arithmetic is on natural numbers, so no sum
wraps (40_framebuffer_ops.md R115). -/

namespace Sys2Proof.Machine

/-- A cell and one bit of it. -/
structure BitAddress where
  page : Nat
  col : Nat
  bit : Nat
  deriving DecidableEq, Repr

/-- PAD (20_memory.md R51). -/
def pad (x y : Nat) : BitAddress := { page := y / 8, col := x, bit := y % 8 }

/-- The pixel that a bit of a cell is (20_memory.md R52). -/
def pixelOf (a : BitAddress) : Nat × Nat := (a.col, 8 * a.page + a.bit)

/-- The byte with only bit `b` set (20_memory.md R51, R54). -/
def bitMask (b : Nat) : Byte := 1#8 <<< b

/-- The enumeration index of cell `(p, c)` (20_memory.md R53), its key in a `Memory` (log 8). -/
def cellIndex (p c : Nat) : Nat := p * Config.width + c

/-- InRangePixel (20_memory.md R56). -/
abbrev InRangePixel (x y : Nat) : Prop := x < Config.width ∧ y < Config.height

/-- InRangeCell (20_memory.md R56). -/
abbrev InRangeCell (p c : Nat) : Prop := p < Config.pageCount ∧ c < Config.width

/-- Every pixel of the set is in range (20_memory.md R58). -/
abbrev AllInRangePixel (pixels : List (Nat × Nat)) : Prop := ∀ q ∈ pixels, InRangePixel q.1 q.2

/-- Every cell of the set is in range (20_memory.md R58). -/
abbrev AllInRangeCell (cells : List (Nat × Nat)) : Prop := ∀ q ∈ cells, InRangeCell q.1 q.2

/-- Every cell of FB in row-major order (20_memory.md R53). Irreducible, so that no elaboration lists them. -/
@[irreducible] def allCells : List (Nat × Nat) :=
  (List.range Config.pageCount).flatMap fun p => (List.range Config.width).map fun c => (p, c)

/-- The set `S` of DRAW_HLINE (41_drawing_engine.md R131). -/
def hlinePixels (x y length : Nat) : List (Nat × Nat) := (List.range length).map fun i => (x + i, y)

/-- Whether offset `(i, j)` belongs to the boundary of a `width` by `height` region (41_drawing_engine.md R133). -/
def onBoundary (width height i j : Nat) : Bool := i == 0 || i + 1 == width || j == 0 || j + 1 == height

/-- The set `S` of DRAW_RECT (41_drawing_engine.md R133). -/
def rectPixels (x y width height : Nat) (filled : Bool) : List (Nat × Nat) :=
  (List.range height).flatMap fun j =>
    ((List.range width).filter fun i => filled || onBoundary width height i j).map fun i => (x + i, y + j)

/-- The character code of a byte, `sext_8` (00_scope.md R10, 30_encoding.md R83). -/
def charCode (ch : Byte) : Int := ch.toInt

/-- The byte DRAW_TEXT writes for column `i` of a character: the glyph's, inverted when `on` is false (41_drawing_engine.md R140). -/
def glyphCell (ch : Byte) (on : Bool) (i : Nat) : Byte :=
  if on then Config.glyphByte (charCode ch) i else ~~~(Config.glyphByte (charCode ch) i)

/-- The cell writes of the characters of a text from framebuffer column `c0` on (41_drawing_engine.md R140): character `k` at
columns `c0 + k * GLYPH_WIDTH` and up. -/
def textWrites (row c0 : Nat) (chars : List Byte) (on : Bool) : List ((Nat × Nat) × Byte) :=
  match chars with
  | [] => []
  | ch :: rest =>
    ((List.range Config.glyphWidth).map fun i => ((row, c0 + i), glyphCell ch on i)) ++
      textWrites row (c0 + Config.glyphWidth) rest on

/-- The cells those writes address: the set `A` of DRAW_TEXT. -/
def textCells (row c0 : Nat) (chars : List Byte) (on : Bool) : List (Nat × Nat) :=
  (textWrites row c0 chars on).map fun w => w.1

end Sys2Proof.Machine
end

