-- ==== Sys2Proof/Machine/Ops.lean ====
section
/-! DEFINITION. The operations the commands and the sequencer are written with: memory, the framebuffer ports (00_scope.md R12),
the bus primitives (R13), how a command ends (R11, 60_exceptions.md R206), the command port, and the ghost display. -/

namespace Sys2Proof.Machine

/-! ### Memory -/

/-- The byte in cell `a`. -/
def Memory.read (m : Memory) (a : Nat) : Byte :=
  match m with
  | [] => unlistedCell
  | (b, w) :: rest => if b = a then w else Memory.read rest a

/-- The memory with cell `a` no longer listed. -/
def Memory.unlist (m : Memory) (a : Nat) : Memory := m.filter fun c => c.1 != a

/-- List cell `a`, which is not listed, at its place in the order. -/
def Memory.list (m : Memory) (a : Nat) (v : Byte) : Memory :=
  match m with
  | [] => [(a, v)]
  | (b, w) :: rest => if b < a then (b, w) :: Memory.list rest a v else (a, v) :: (b, w) :: rest

/-- Put `v` into cell `a`, keeping the canonical form: a cell that comes to hold `unlistedCell` is listed no more. -/
def Memory.write (m : Memory) (a : Nat) (v : Byte) : Memory :=
  if v = unlistedCell then m.unlist a else (m.unlist a).list a v

/-- Several writes, in order. Irreducible, so that no elaboration unrolls the writes to a whole page or memory. -/
@[irreducible] def Memory.writeAll (m : Memory) (writes : List (Nat × Byte)) : Memory :=
  match writes with
  | [] => m
  | (a, v) :: rest => Memory.writeAll (m.write a v) rest

/-! ### Outcomes -/

/-- Go on with the result of an operation, or stop where it stops. -/
def andThen {α β : Type} (o : Host.Outcome α Fault Refusal) (f : α → Host.Outcome β Fault Refusal) :
    Host.Outcome β Fault Refusal :=
  match o with
  | .next a => f a
  | .fault r => .fault r
  | .refused r => .refused r

/-! ### Framebuffer ports (00_scope.md R12, 20_memory.md R60) -/

/-- FBRead. -/
def fbRead (fb : Memory) (p c : Nat) : Host.Outcome Byte Fault Refusal :=
  if InRangeCell p c then .next (fb.read (cellIndex p c)) else .fault (.cellOutOfRange p c)

/-- FBWrite. -/
def fbWrite (fb : Memory) (p c : Nat) (v : Byte) : Host.Outcome Memory Fault Refusal :=
  if InRangeCell p c then .next (fb.write (cellIndex p c) v) else .fault (.cellOutOfRange p c)

/-- What FBSetBit makes of a cell's byte. -/
def setBit (v : Byte) (b : Nat) (on : Bool) : Byte := if on then v ||| bitMask b else v &&& ~~~(bitMask b)

/-- FBSetBit: a read-modify-write of one cell. -/
def fbSetBit (fb : Memory) (p c b : Nat) (on : Bool) : Host.Outcome Memory Fault Refusal :=
  if b < 8 then andThen (fbRead fb p c) fun v => fbWrite fb p c (setBit v b on)
  else .fault (.bitOutOfRange b)

/-- FBSetBit at a pixel's address. -/
def setPixel (fb : Memory) (x y : Nat) (on : Bool) : Host.Outcome Memory Fault Refusal :=
  fbSetBit fb (pad x y).page (pad x y).col (pad x y).bit on

/-- FBSetBit at each pixel of a set; the order is not observable (41_drawing_engine.md R130, log 14). -/
def setPixels (fb : Memory) (pixels : List (Nat × Nat)) (on : Bool) : Host.Outcome Memory Fault Refusal :=
  match pixels with
  | [] => .next fb
  | (x, y) :: rest => andThen (setPixel fb x y on) fun fb' => setPixels fb' rest on

/-- FBWrite at each cell of a list. -/
def writeCells (fb : Memory) (writes : List ((Nat × Nat) × Byte)) : Host.Outcome Memory Fault Refusal :=
  match writes with
  | [] => .next fb
  | ((p, c), v) :: rest => andThen (fbWrite fb p c v) fun fb' => writeCells fb' rest

/-- Clear: 0 into every cell, in row-major order (20_memory.md R60, 40_framebuffer_ops.md R111). Every cell is in range, so this
is `writeCells` without its range checks (`writeCells_clear` in Laws/Ops.lean). -/
def clearCells (fb : Memory) : Memory := fb.writeAll (allCells.map fun q => (cellIndex q.1 q.2, 0#8))

/-! ### How a command ends (00_scope.md R11, 60_exceptions.md R206) -/

/-- `respond(v)`: success. -/
def respond (payload : Option Byte) (s : State) : State :=
  { s with st := .idle, responses := s.responses ++ [.ok payload] }

/-- `raise E(info)`: the command ends, ST becomes IDLE, the response carries the error; nothing is saved or rolled back, and there
is no handler to go to or return from (60_exceptions.md R206, R210). -/
def raise (kind : ErrorKind) (s : State) : State :=
  { s with st := .idle, responses := s.responses ++ [.error kind] }

/-- A command that has computed the new framebuffer ends with success. -/
def finishWith (s : State) (fb : Host.Outcome Memory Fault Refusal) : Host.Outcome State Fault Refusal :=
  andThen fb fun fb' => .next (respond none { s with fb := fb' })

/-- A command that sets or clears a set of pixels: all in range or nothing (20_memory.md R58, 41_drawing_engine.md R130). -/
def drawPixels (pixels : List (Nat × Nat)) (on : Bool) (s : State) : Host.Outcome State Fault Refusal :=
  if AllInRangePixel pixels then finishWith s (setPixels s.fb pixels on)
  else .next (raise .coordinateOutOfRange s)

/-! ### Bus primitives (00_scope.md R13) -/

/-- TxBegin. -/
def txBegin (s : State) : State := { s with txn := [], events := s.events ++ [.txBegin] }

/-- TxWrite. -/
def txWrite (b : Byte) (s : State) : State :=
  { s with txn := s.txn ++ [b], events := s.events ++ [.txWrite b Config.ackRequired] }

/-- TxEnd. -/
def txEnd (s : State) : State := { s with events := s.events ++ [.txEnd] }

/-- The answer the Bus Transport will give to the next TxExec: it always answers (10_state.md R30, log 11). -/
def nextAnswer (s : State) : BusAnswer :=
  match s.answers with
  | a :: _ => a
  | [] => Config.busAnswer s.answerIndex

/-- TxExec: hand over TXN with `P_ADDR` and `TIMEOUT`, take the answer, append both to LOG (10_state.md R32). -/
def txExec (s : State) : State :=
  { s with
    answers := s.answers.tail
    answerIndex := if s.answers.isEmpty then s.answerIndex + 1 else s.answerIndex
    log := s.log ++ [⟨s.txn, nextAnswer s⟩]
    events := s.events ++ [.txExec s.txn Config.peripheralAddress Config.timeout (nextAnswer s)] }

/-- How a command or transaction ends that the Bus Transport answered with an error: TransportError, `e` verbatim
(60_exceptions.md R204). -/
def raiseTransport (e : TransportErrorInfo) (s : State) : State := raise (.transportError e) s

/-! ### The ghost display (10_state.md R33, log 13) -/

/-- The cells' display content becomes unspecified (93 U5, U8). -/
def displayLost (cells : List (Nat × Nat)) (s : State) : State :=
  { s with
    disp := s.disp.writeAll (cells.map fun q => (cellIndex q.1 q.2, Config.freeDisplayCell s.freeIndex (cellIndex q.1 q.2)))
    freeIndex := s.freeIndex + 1 }

/-- The cells of page `p`. -/
def pageCells (p : Nat) : List (Nat × Nat) := (List.range Config.width).map fun c => (p, c)

/-- Page `p` shows the data bytes of the transaction `bytes`, which follow its four header bytes (30_encoding.md R92). -/
def displayPage (p : Nat) (bytes : List Byte) (s : State) : State :=
  { s with
    disp := s.disp.writeAll
      ((List.range Config.width).map fun c => (cellIndex p c, bytes.getD (4 + c) unlistedCell)) }

/-- The boot order after an INIT's transaction (70_reset_and_hazards.md R235, 93 U8). -/
def bootAfterInit (boot : BootOrder) (answer : BusAnswer) : BootOrder :=
  match boot, answer with
  | .fresh, .ok => .kept
  | .fresh, .err _ => .fresh
  | .kept, _ => .broken
  | .broken, _ => .broken

/-- The boot order after a REFRESH transaction. -/
def bootAfterPage (boot : BootOrder) : BootOrder :=
  match boot with
  | .fresh => .broken
  | .kept => .kept
  | .broken => .broken

/-- The display after an INIT's transaction: what it shows is not specified (91 N13). -/
def displayAfterInit (answer : BusAnswer) (s : State) : State :=
  displayLost allCells { s with boot := bootAfterInit s.boot answer }

/-- The display after the transaction for page PG: in the boot order, the page's data on Ok and something unspecified on an error
(93 U5); out of it, anything (93 U8). -/
def displayAfterPage (answer : BusAnswer) (s : State) : State :=
  match s.boot, answer with
  | .kept, .ok => displayPage s.pg s.txn s
  | .kept, .err _ => displayLost (pageCells s.pg) s
  | boot, _ => displayLost allCells { s with boot := bootAfterPage boot }

/-! ### The command port (30_encoding.md R81, 10_state.md R31) -/

/-- The packet the Host presents, and the state once the port has taken it. -/
def takePacket (s : State) : Option (Packet × State) :=
  match s.commands with
  | [] => none
  | p :: rest => some (p, { s with commands := rest })

end Sys2Proof.Machine
end

