-- ==== Sys2Proof/Machine/Drawing.lean ====
section
/-! DEFINITION. DRAW_HLINE, DRAW_RECT, DRAW_TEXT (41_drawing_engine.md). Each checks every address before it writes any
(20_memory.md R58) and is one step from IDLE to IDLE (R62). -/

namespace Sys2Proof.Machine

/-- DRAW_HLINE (41_drawing_engine.md R131). -/
def execDrawHline (x y length : Nat) (on : Bool) (s : State) : Host.Outcome State Fault Refusal :=
  drawPixels (hlinePixels x y length) on s

/-- DRAW_RECT (41_drawing_engine.md R133). -/
def execDrawRect (x y width height : Nat) (on filled : Bool) (s : State) : Host.Outcome State Fault Refusal :=
  drawPixels (rectPixels x y width height filled) on s

/-- DRAW_TEXT (41_drawing_engine.md R140). -/
def execDrawText (row column : Nat) (chars : List Byte) (on : Bool) (s : State) : Host.Outcome State Fault Refusal :=
  if AllInRangeCell (textCells row (column * Config.glyphWidth) chars on) then
    finishWith s (writeCells s.fb (textWrites row (column * Config.glyphWidth) chars on))
  else .next (raise .coordinateOutOfRange s)

end Sys2Proof.Machine
end

