-- ==== Sys2Proof/Machine/Framebuffer.lean ====
section
/-! DEFINITION. CLEAR, DRAW_PIXEL, READ_CELL (40_framebuffer_ops.md). Each is one step from IDLE to IDLE (20_memory.md R62). -/

namespace Sys2Proof.Machine

/-- CLEAR (40_framebuffer_ops.md R111). -/
def execClear (s : State) : Host.Outcome State Fault Refusal := .next (respond none { s with fb := clearCells s.fb })

/-- DRAW_PIXEL (40_framebuffer_ops.md R112). -/
def execDrawPixel (x y : Nat) (on : Bool) (s : State) : Host.Outcome State Fault Refusal :=
  if InRangePixel x y then finishWith s (setPixel s.fb x y on) else .next (raise .coordinateOutOfRange s)

/-- READ_CELL (40_framebuffer_ops.md R114). -/
def execReadCell (page col : Nat) (s : State) : Host.Outcome State Fault Refusal :=
  if InRangeCell page col then andThen (fbRead s.fb page col) fun v => .next (respond (some v) s)
  else .next (raise .coordinateOutOfRange s)

end Sys2Proof.Machine
end

