-- ==== Sys2Proof/Machine/Init.lean ====
section
/-! DEFINITION. INIT and the rows of its transaction (42_init_protocol.md R152). -/

namespace Sys2Proof.Machine

/-- INIT accepted: the clear is part of the step that accepts the command (42_init_protocol.md R151, R152). -/
def execInit (s : State) : Host.Outcome State Fault Refusal :=
  .next { s with fb := clearCells s.fb, st := .iStart }

/-- I_START. -/
def initStart (s : State) : State := { txBegin s with st := .iAddr }

/-- I_ADDR. -/
def initAddr (s : State) : State := { txWrite Config.addrByte s with st := .iMark }

/-- I_MARK. -/
def initMark (s : State) : State := { txWrite Config.markerCmdStream s with k := 0, st := .iCmds }

/-- I_CMDS: the next byte of `INIT_CMDS`, or on to I_STOP. -/
def initCmds (s : State) : Host.Outcome State Fault Refusal :=
  if h : s.k < Config.initCmds.length then .next { txWrite Config.initCmds[s.k] s with k := s.k + 1 }
  else if s.k = Config.initLength then .next { s with st := .iStop }
  else .fault (.noTransition .iCmds)

/-- I_STOP. -/
def initStop (s : State) : State := { txEnd s with st := .iExec }

/-- I_EXEC: the answer decides the response. -/
def initExec (s : State) : State :=
  match nextAnswer s with
  | .ok => respond none (displayAfterInit .ok (txExec s))
  | .err e => raiseTransport e (displayAfterInit (.err e) (txExec s))

end Sys2Proof.Machine
end

