-- ==== Sys2Proof/Machine/Refresh.lean ====
section
/-! DEFINITION. REFRESH and the rows T0 to T11 of the page-write FSM (43_refresh_fsm.md R167). -/

namespace Sys2Proof.Machine

/-- REFRESH accepted, row T0 (43_refresh_fsm.md R166, R167). -/
def execRefresh (s : State) : Host.Outcome State Fault Refusal := .next { s with pg := 0, st := .rStart }

/-- R_START, row T1. -/
def refreshStart (s : State) : State := { txBegin s with st := .rAddr }

/-- R_ADDR, row T2. -/
def refreshAddr (s : State) : State := { txWrite Config.addrByte s with st := .rMarkCmd }

/-- R_MARK_CMD, row T3. -/
def refreshMarkCmd (s : State) : State := { txWrite Config.markerCmdSingle s with st := .rPageCmd }

/-- R_PAGE_CMD, row T4; `PAGE_CMD` is given for `0..PAGE_COUNT-1` only (00_scope.md R9). -/
def refreshPageCmd (s : State) : Host.Outcome State Fault Refusal :=
  if s.pg < Config.pageCount then .next { txWrite (Config.pageCmd s.pg) s with st := .rMarkData }
  else .fault (.pageOutOfRange s.pg)

/-- R_MARK_DATA, row T5. -/
def refreshMarkData (s : State) : State := { txWrite Config.markerData s with col := 0, st := .rData }

/-- R_DATA, rows T6 and T7. -/
def refreshData (s : State) : Host.Outcome State Fault Refusal :=
  if s.col < Config.width then
    andThen (fbRead s.fb s.pg s.col) fun v => .next { txWrite v s with col := s.col + 1 }
  else if s.col = Config.width then .next { s with st := .rStop }
  else .fault (.noTransition .rData)

/-- R_STOP, row T8. -/
def refreshStop (s : State) : State := { txEnd s with st := .rExec }

/-- R_EXEC, rows T9, T10 and T11. -/
def refreshExec (s : State) : Host.Outcome State Fault Refusal :=
  match nextAnswer s with
  | .ok =>
    if s.pg < Config.pageCount - 1 then
      .next { displayAfterPage .ok (txExec s) with pg := s.pg + 1, st := .rStart }
    else if s.pg = Config.pageCount - 1 then .next (respond none (displayAfterPage .ok (txExec s)))
    else .fault (.noTransition .rExec)
  | .err e => .next (raiseTransport e (displayAfterPage (.err e) (txExec s)))

end Sys2Proof.Machine
end

