-- ==== Sys2Proof/Machine/Dispatch.lean ====
section
/-! DEFINITION. One arm per host command. The step calls `exec` in IDLE only (40_framebuffer_ops.md R110, log 16). -/

namespace Sys2Proof.Machine

def exec (i : Instr) (s : State) : Host.Outcome State Fault Refusal :=
  match i with
  | .init => Sys2Proof.Machine.execInit s
  | .clear => Sys2Proof.Machine.execClear s
  | .drawPixel x y on => Sys2Proof.Machine.execDrawPixel x y on s
  | .drawHline x y length on => Sys2Proof.Machine.execDrawHline x y length on s
  | .drawRect x y width height on filled => Sys2Proof.Machine.execDrawRect x y width height on filled s
  | .drawText row column chars on => Sys2Proof.Machine.execDrawText row column chars on s
  | .refresh => Sys2Proof.Machine.execRefresh s
  | .readCell page col => Sys2Proof.Machine.execReadCell page col s

end Sys2Proof.Machine
end

