-- ==== Sys2Proof/Machine/Sequencer.lean ====
section
/-! DEFINITION. One step of the sequencer: the row of 42_init_protocol.md R152 or 43_refresh_fsm.md R167 for the value of ST. -/

namespace Sys2Proof.Machine

/-- The step of the Block, and in I_EXEC and R_EXEC of the Bus Transport's answer (10_state.md R23). -/
def sequencerStep (s : State) : Host.Outcome State Fault Refusal :=
  match s.st with
  | .idle => .next s
  | .iStart => .next (initStart s)
  | .iAddr => .next (initAddr s)
  | .iMark => .next (initMark s)
  | .iCmds => initCmds s
  | .iStop => .next (initStop s)
  | .iExec => .next (initExec s)
  | .rStart => .next (refreshStart s)
  | .rAddr => .next (refreshAddr s)
  | .rMarkCmd => .next (refreshMarkCmd s)
  | .rPageCmd => refreshPageCmd s
  | .rMarkData => .next (refreshMarkData s)
  | .rData => refreshData s
  | .rStop => .next (refreshStop s)
  | .rExec => refreshExec s

end Sys2Proof.Machine
end

