-- ==== Sys2Proof/Machine/Step.lean ====
section
/-! DEFINITION. One step of the machine: in IDLE the port takes the packet the Host presents and the command runs, or the block
waits when none is presented (10_state.md R31, R35, log 10); in every other state the sequencer steps. -/

namespace Sys2Proof.Machine

def step (s : State) : Host.Outcome State Fault Refusal :=
  match s.st with
  | .idle =>
    match takePacket s with
    | none => .next s
    | some (p, s') =>
      match decode p with
      | .ok i => exec i s'
      | .error _ => .next (raise .illegalCommand s')
  | _ => sequencerStep s

/-- `s` with the packet whose bits are `w` at the command port, ahead of the packets the Host has still to present, and the block
in IDLE, where it takes a packet (log 10, log 17). -/
def State.withFetchWord (s : State) (nbits w : Nat) : State :=
  { s with st := .idle, commands := packetOfWord nbits w :: s.commands }

end Sys2Proof.Machine
end

