-- ==== Sys2Proof/Safety.lean ====
section
/-! DEFINITION. The terms claims are stated in: what a cell, a pixel and the display show, the two wire transactions
(30_encoding.md R92, R93), runs of several steps, and the invariant of the machine (43_refresh_fsm.md R168). -/

namespace Sys2Proof.Machine

/-! ### Views of the state -/

/-- `FB[p][c]`. -/
def cell (s : State) (p c : Nat) : Byte := s.fb.read (cellIndex p c)

/-- Whether pixel `(x, y)` is on in a framebuffer (10_state.md R21, R34). -/
def pixelAt (fb : Memory) (x y : Nat) : Bool := (fb.read (cellIndex (y / 8) x)).getLsbD (y % 8)

/-- Whether pixel `(x, y)` is on. -/
def pixel (s : State) (x y : Nat) : Bool := pixelAt s.fb x y

/-- `DISP[p][c]` (10_state.md R33). -/
def shown (s : State) (p c : Nat) : Byte := s.disp.read (cellIndex p c)

/-- The number of pixels that are on. -/
def pixelsOn (s : State) : Nat :=
  ((List.range Config.height).map fun y => ((List.range Config.width).filter fun x => pixel s x y).length).sum

/-- The cell a pixel is in, by its enumeration index (20_memory.md R51, R53). -/
def pixelCell (q : Nat × Nat) : Nat := cellIndex (pad q.1 q.2).page (pad q.1 q.2).col

/-- The cells, by enumeration index, that a command writes where it succeeds (10_state.md R22). -/
def writtenCells : Instr → List Nat
  | .init => allCells.map fun q => cellIndex q.1 q.2
  | .clear => allCells.map fun q => cellIndex q.1 q.2
  | .drawPixel x y _ => [pixelCell (x, y)]
  | .drawHline x y length _ => (hlinePixels x y length).map pixelCell
  | .drawRect x y width height _ filled => (rectPixels x y width height filled).map pixelCell
  | .drawText row column chars on =>
    (textCells row (column * Config.glyphWidth) chars on).map fun q => cellIndex q.1 q.2
  | .refresh => []
  | .readCell _ _ => []

/-! ### Wire transactions -/

/-- The cells of page `p` in column order. -/
def pageData (fb : Memory) (p : Nat) : List Byte := (List.range Config.width).map fun c => fb.read (cellIndex p c)

/-- The first four bytes of a page transaction. -/
def pageHeader (p : Nat) : List Byte :=
  [Config.addrByte, Config.markerCmdSingle, Config.pageCmd p, Config.markerData]

/-- PAGE_TXN (30_encoding.md R92). -/
def pageTxn (fb : Memory) (p : Nat) : List Byte := pageHeader p ++ pageData fb p

/-- INIT_TXN (30_encoding.md R93). -/
def initTxn : List Byte := [Config.addrByte, Config.markerCmdStream] ++ Config.initCmds

/-- What the Bus Transport sees of a transaction with this payload and answer (30_encoding.md R91). -/
def transactionEvents (bytes : List Byte) (answer : BusAnswer) : List BusEvent :=
  [.txBegin] ++ bytes.map (fun b => .txWrite b Config.ackRequired) ++
    [.txEnd, .txExec bytes Config.peripheralAddress Config.timeout answer]

/-- The entries of LOG that a list of bus events holds (10_state.md R32). -/
def logOf (events : List BusEvent) : List LogEntry :=
  events.filterMap fun
    | .txExec bytes _ _ answer => some ⟨bytes, answer⟩
    | .txBegin => none
    | .txWrite _ _ => none
    | .txEnd => none

/-! ### Runs -/

/-- `n` steps, stopping at the first fault or refusal. -/
def run : Nat → State → Host.Outcome State Fault Refusal
  | 0, s => .next s
  | n + 1, s => andThen (step s) (run n)

/-- The answer the Bus Transport will give to the TxExec that is `n` TxExecs ahead (10_state.md R30, log 11). -/
def upcoming (s : State) (n : Nat) : BusAnswer :=
  match s.answers[n]? with
  | some a => a
  | none => Config.busAnswer (s.answerIndex + (n - s.answers.length))

/-! ### Illegal packets, as 30_encoding.md R85 lists them -/

/-- The length a format requires of a packet (30_encoding.md R82, R85 test 6). -/
def hasFormatLength (opc : Nat) (p : Packet) : Prop :=
  match opc with
  | 1 | 2 | 7 => p.length = 1
  | 3 | 8 => p.length = 3
  | 4 => p.length = 4
  | 5 => p.length = 5
  | _ => 4 ≤ p.length ∧ p.length = 4 + (p.getD 3 0).toNat

/-- Test `error` of R85 rejects the packet, its opcode byte `B[0]` read as a number. -/
def failsTest (p : Packet) (error : DecodeError) : Prop :=
  let b := (p.getD 0 0).toNat
  let opc := b / 16
  match error with
  | .noOpcodeByte => p.length = 0
  | .reservedOpcode => opc = 0 ∨ 9 ≤ opc
  | .reservedBits => b / 4 % 4 ≠ 0
  | .filledFlag => b / 2 % 2 = 1 ∧ opc ≠ 5
  | .onFlag => b % 2 = 1 ∧ (opc = 1 ∨ opc = 2 ∨ opc = 7 ∨ opc = 8)
  | .wrongLength => ¬ hasFormatLength opc p

/-- The number of a test in R85. -/
def testNumber : DecodeError → Nat
  | .noOpcodeByte => 1
  | .reservedOpcode => 2
  | .reservedBits => 3
  | .filledFlag => 4
  | .onFlag => 5
  | .wrongLength => 6

/-! ### Phases of the sequencer -/

/-- The states of a REFRESH in progress. -/
def SeqState.inRefresh : SeqState → Bool
  | .rStart | .rAddr | .rMarkCmd | .rPageCmd | .rMarkData | .rData | .rStop | .rExec => true
  | .idle | .iStart | .iAddr | .iMark | .iCmds | .iStop | .iExec => false

/-- The states of an INIT in progress. -/
def SeqState.inInit : SeqState → Bool
  | .iStart | .iAddr | .iMark | .iCmds | .iStop | .iExec => true
  | .idle | .rStart | .rAddr | .rMarkCmd | .rPageCmd | .rMarkData | .rData | .rStop | .rExec => false

/-! ### What may not matter -/

/-- TXN is read by some rule before it is next emptied (10_state.md R27). -/
def SeqState.txnLive : SeqState → Bool
  | .idle | .iStart | .rStart => false
  | .iAddr | .iMark | .iCmds | .iStop | .iExec => true
  | .rAddr | .rMarkCmd | .rPageCmd | .rMarkData | .rData | .rStop | .rExec => true

/-- The state with each dead sequencer register put to one value: PG outside a REFRESH (10_state.md R24), COL outside R_DATA (R25),
K outside I_CMDS (R26), TXN between transactions (R27). -/
def liveView (s : State) : State :=
  { s with
    pg := if s.st.inRefresh then s.pg else 0
    col := if s.st = .rData then s.col else 0
    k := if s.st = .iCmds then s.k else 0
    txn := if s.st.txnLive then s.txn else [] }

/-- The state with every observation, which the block never reads, put to one value. -/
def blockView (s : State) : State :=
  { s with log := [], events := [], responses := [], boot := .fresh, disp := [], freeIndex := 0 }

/-- An outcome seen through a view of the state. -/
def viewOutcome (view : State → State) (o : Host.Outcome State Fault Refusal) : Host.Outcome State Fault Refusal :=
  andThen o fun t => .next (view t)

/-! ### The invariant -/

/-- What TXN and the counter of the innermost loop hold in each value of ST (43_refresh_fsm.md R168; 42_init_protocol.md R152). -/
def sequencerInv (s : State) : Prop :=
  match s.st with
  | .idle | .iStart | .rStart => True
  | .iAddr | .rAddr => s.txn = []
  | .iMark | .rMarkCmd => s.txn = [Config.addrByte]
  | .iCmds => s.k ≤ Config.initLength ∧
      s.txn = [Config.addrByte, Config.markerCmdStream] ++ Config.initCmds.take s.k
  | .iStop | .iExec => s.txn = initTxn
  | .rPageCmd => s.txn = [Config.addrByte, Config.markerCmdSingle]
  | .rMarkData => s.txn = [Config.addrByte, Config.markerCmdSingle, Config.pageCmd s.pg]
  | .rData => s.col ≤ Config.width ∧ s.txn = pageHeader s.pg ++ (pageData s.fb s.pg).take s.col
  | .rStop | .rExec => s.txn = pageTxn s.fb s.pg

/-- The invariant every step keeps. -/
structure MachineInv (s : State) : Prop where
  /-- FB is in canonical form. -/
  fb_wf : s.fb.wf
  /-- The ghost display is in canonical form. -/
  disp_wf : s.disp.wf
  /-- TXN, K and COL are what ST says (43_refresh_fsm.md R168). -/
  sequencer : sequencerInv s
  /-- FB is all zero while an INIT is in progress (42_init_protocol.md R151). -/
  init_clear : s.st.inInit = true → s.fb = []
  /-- PG is a page while a REFRESH is in progress (10_state.md R24). -/
  page_range : s.st.inRefresh = true → s.pg < Config.pageCount
  /-- The pages before PG have been sent, in order, each answered Ok (43_refresh_fsm.md R168). -/
  pages_sent : s.st.inRefresh = true →
    ∃ before, s.log = before ++ (List.range s.pg).map fun p => ⟨pageTxn s.fb p, .ok⟩
  /-- LOG holds the executed transactions and nothing else (10_state.md R32). -/
  log_events : s.log = logOf s.events
  /-- Only failed INITs have been executed while the ghost `boot` is fresh. -/
  boot_fresh : s.boot = .fresh → ∀ entry ∈ s.log, entry.bytes = initTxn ∧ entry.answer ≠ .ok
  /-- The first transaction after failed INITs was an INIT's, answered Ok, while the ghost `boot` is kept
  (70_reset_and_hazards.md R235, R236). -/
  boot_kept : s.boot = .kept → ∃ failed rest, s.log = failed ++ ⟨initTxn, .ok⟩ :: rest ∧
    ∀ entry ∈ failed, entry.bytes = initTxn ∧ entry.answer ≠ .ok
  /-- In the boot order the display shows FB on the pages before PG while a REFRESH is in progress (10_state.md R33). -/
  pages_shown : s.boot = .kept → s.st.inRefresh = true →
    ∀ p c, p < s.pg → c < Config.width → shown s p c = cell s p c

end Sys2Proof.Machine
end

