-- ==== Sys2Proof/Certificates/Slice0/Obligations.lean ====
section
/-! DEFINITION. The statements about FBPW. A next state is written as the state before with the fields the rule changes, so that
each such statement is also the frame: every field not named is unchanged. -/

open Sys2Proof Sys2Proof.Machine

/-! ### Packets -/

/-- One packet of each format, written out from 30_encoding.md R81, R82 and R84, decodes to the command it stands for. -/
def Obligations.SamplePacketsDecode : Prop :=
  decode [0x10] = .ok .init ∧
  decode [0x20] = .ok .clear ∧
  decode [0x31, 0x05, 0x0A] = .ok (.drawPixel 5 10 true) ∧
  decode [0x40, 0x00, 0x0A, 0x80] = .ok (.drawHline 0 10 128 false) ∧
  decode [0x51, 0x02, 0x03, 0x05, 0x04] = .ok (.drawRect 2 3 5 4 true false) ∧
  decode [0x52, 0x03, 0x04, 0x03, 0x02] = .ok (.drawRect 3 4 3 2 false true) ∧
  decode [0x61, 0x00, 0x0E, 0x02, 0x48, 0x69] = .ok (.drawText 0 14 [0x48, 0x69] true) ∧
  decode [0x70] = .ok .refresh ∧
  decode [0x80, 0x01, 0x05] = .ok (.readCell 1 5)

/-- Every well-formed command comes back from its packet (30_encoding.md R82, R83, R84). -/
def Obligations.DecodeOfEncode : Prop :=
  ∀ i : Instr, i.wellFormed = true → decode (encode i) = .ok i

/-- Every packet the decoder accepts is the packet of the command it decodes to, which is well formed: no bit of a legal packet is
ignored and no two packets are one command (30_encoding.md R81 to R84). -/
def Obligations.EncodeOfDecode : Prop :=
  ∀ (p : Packet) (i : Instr), decode p = .ok i → i.wellFormed = true ∧ encode i = p

/-- 30_encoding.md R85, 60_exceptions.md R202: a packet is rejected exactly when one of the six tests rejects it, under the name of
the first that does, and its step ends with IllegalCommand: the packet is taken, the response given, and nothing else changes. -/
def Obligations.IllegalPacketsInTestOrder : Prop :=
  (∀ (p : Packet) (e : DecodeError), decode p = .error e ↔
    failsTest p e ∧ ∀ d, testNumber d < testNumber e → ¬ failsTest p d) ∧
  (∀ (s : State) (p : Packet) (rest : List Packet) (e : DecodeError),
    s.st = .idle → s.commands = p :: rest → failsTest p e →
    step s = .next { s with commands := rest, responses := s.responses ++ [.error .illegalCommand] })

/-- 30_encoding.md R90: the response packets. -/
def Obligations.ResponsePackets : Prop :=
  (Response.ok none).packet = [0x00] ∧
  (∀ v : Byte, (Response.ok (some v)).packet = [0x00, v]) ∧
  (Response.error .coordinateOutOfRange).packet = [0x01] ∧
  (∀ e : TransportErrorInfo, (Response.error (.transportError e)).packet = 0x02 :: e.bytes) ∧
  (Response.error .illegalCommand).packet = [0x03]

/-! ### The step around a command -/

/-- In IDLE a packet that decodes is taken from the port and its command runs (40_framebuffer_ops.md R110). -/
def Obligations.StepRunsTheDecodedCommand : Prop :=
  ∀ (s : State) (p : Packet) (rest : List Packet) (i : Instr),
    s.st = .idle → s.commands = p :: rest → decode p = .ok i → step s = exec i { s with commands := rest }

/-- With no command presented the block waits in IDLE (10_state.md R35; that waiting is a step that changes nothing is the
model's choice, log 10). -/
def Obligations.IdleWaitsForTheHost : Prop :=
  ∀ s : State, s.st = .idle → s.commands = [] → step s = .next s

/-- While ST is not IDLE the port is not ready: what the Host would present changes nothing and is left at the port
(10_state.md R31, 20_memory.md R68). -/
def Obligations.BusyBlockHoldsThePort : Prop :=
  ∀ (s : State) (q : List Packet), s.st ≠ .idle →
    (∀ t, step s = .next t → t.commands = s.commands) ∧
    step { s with commands := q } = viewOutcome (fun t => { t with commands := q }) (step s)

/-- Every command, on every operand and in every state, answers a next state: none stops the machine. -/
def Obligations.EveryCommandAnswersNext : Prop :=
  ∀ (i : Instr) (s : State), ∃ t, exec i s = .next t

/-- A command ends with one response and ST = IDLE, and nothing else gives a response (30_encoding.md R90, 40_framebuffer_ops.md
R110). -/
def Obligations.OneResponsePerCommand : Prop :=
  ∀ s t : State, step s = .next t →
    if t.st = .idle ∧ (s.st ≠ .idle ∨ s.commands ≠ []) then ∃ r, t.responses = s.responses ++ [r]
    else t.responses = s.responses

/-! ### Reset -/

/-- 10_state.md R35: after reset ST is IDLE and LOG is empty; every cell of FB and of the display holds the free value the
configuration gives it (log 7, log 13). -/
def Obligations.ResetLeavesIdleAndUnknownCells : Prop :=
  State.reset.st = .idle ∧ State.reset.log = [] ∧
  (∀ p c, InRangeCell p c → cell State.reset p c = Config.resetCell (cellIndex p c)) ∧
  (∀ p c, InRangeCell p c → shown State.reset p c = Config.resetDisplayCell (cellIndex p c))

/-- The registers that reset leaves unspecified are dead: two states that differ in dead registers only step to two such states
(10_state.md R24 to R27). -/
def Obligations.DeadRegistersDoNotMatter : Prop :=
  ∀ s t : State, liveView s = liveView t → viewOutcome liveView (step s) = viewOutcome liveView (step t)

/-! ### Parameters -/

/-- 00_scope.md R8: every geometry meets the constraints, has 8 pixel rows to a page, and the defaults, which the block is configured
with, are 128 columns and 8 pages. -/
def Obligations.GeometryOfTheBlock : Prop :=
  (∀ g : Geometry, 1 ≤ g.width ∧ 1 ≤ g.pageCount ∧ g.pageCount ≤ 8 ∧ g.height = g.pageCount * 8) ∧
  Config.geometry = {} ∧ Config.width = 128 ∧ Config.pageCount = 8 ∧ Config.height = 64

/-- 30_encoding.md R94: the three markers are pairwise distinct and `PAGE_CMD` is injective on the pages, so an observer tells INIT's
transaction from every page transaction (that the parameters meet these constraints by construction is log 2 and log 3). -/
def Obligations.MarkersTellTransactionsApart : Prop :=
  (Config.markerCmdStream ≠ Config.markerCmdSingle ∧ Config.markerCmdStream ≠ Config.markerData ∧
    Config.markerCmdSingle ≠ Config.markerData) ∧
  (∀ p q, p < Config.pageCount → q < Config.pageCount → Config.pageCmd p = Config.pageCmd q → p = q) ∧
  (∀ fb p, pageTxn fb p ≠ initTxn)

/-! ### PAD -/

/-- 20_memory.md R51: PAD of a pixel in range is a page, a column and a bit in range, and the mask of the bit has that bit only. -/
def Obligations.PadSelectsOneBit : Prop :=
  ∀ x y, InRangePixel x y →
    (pad x y).page = y / 8 ∧ (pad x y).page < Config.pageCount ∧ (pad x y).col = x ∧
    (pad x y).bit = y % 8 ∧ (pad x y).bit ≤ 7 ∧ bitMask (pad x y).bit = 1#8 <<< (y % 8) ∧
    ∀ b, b < 8 → ((bitMask (pad x y).bit).getLsbD b = true ↔ b = y % 8)

/-- PAD and the map of 20_memory.md R52 are each other's inverse on what is in range, so no two pixels share a bit of FB and every
bit is some pixel (10_state.md R34). -/
def Obligations.PadAndItsInverse : Prop :=
  (∀ x y, InRangePixel x y → pixelOf (pad x y) = (x, y)) ∧
  (∀ p c b, InRangeCell p c → b < 8 →
    pixelOf ⟨p, c, b⟩ = (c, 8 * p + b) ∧ InRangePixel c (8 * p + b) ∧ pad c (8 * p + b) = ⟨p, c, b⟩)

/-! ### Framebuffer commands -/

/-- 40_framebuffer_ops.md R111: the packet of CLEAR; CLEAR sets every cell to 0 and responds, it has no error, and nothing else
changes. A canonical FB then lists no cell. -/
def Obligations.ClearZeroesEveryCell : Prop :=
  decode [0x20] = .ok .clear ∧
  ∀ s : State, ∃ fb',
    exec .clear s = .next { s with fb := fb', st := .idle, responses := s.responses ++ [.ok none] } ∧
    (∀ p c, InRangeCell p c → fb'.read (cellIndex p c) = 0) ∧ (s.fb.wf → fb' = [])

/-- 40_framebuffer_ops.md R112 and R113: the packets of DRAW_PIXEL; in range it sets or clears one bit of one cell and responds, every
other bit and every other cell unchanged; out of range it raises CoordinateOutOfRange and nothing else. -/
def Obligations.DrawPixelSetsOneBit : Prop :=
  (∀ (x y : Byte) (on : Bool), decode [if on then 0x31 else 0x30, x, y] = .ok (.drawPixel x.toNat y.toNat on)) ∧
  ∀ (s : State) (x y : Nat) (on : Bool),
    (InRangePixel x y → ∃ fb',
      exec (.drawPixel x y on) s = .next { s with fb := fb', st := .idle, responses := s.responses ++ [.ok none] } ∧
      fb'.read (cellIndex (y / 8) x) =
        (if on then s.fb.read (cellIndex (y / 8) x) ||| 1#8 <<< (y % 8)
         else s.fb.read (cellIndex (y / 8) x) &&& ~~~(1#8 <<< (y % 8))) ∧
      (fb'.read (cellIndex (y / 8) x)).getLsbD (y % 8) = on ∧
      (∀ b, b < 8 → b ≠ y % 8 →
        (fb'.read (cellIndex (y / 8) x)).getLsbD b = (s.fb.read (cellIndex (y / 8) x)).getLsbD b) ∧
      (∀ a, a ≠ cellIndex (y / 8) x → fb'.read a = s.fb.read a)) ∧
    (¬ InRangePixel x y →
      exec (.drawPixel x y on) s =
        .next { s with st := .idle, responses := s.responses ++ [.error .coordinateOutOfRange] })

/-- 40_framebuffer_ops.md R114: the packet of READ_CELL; in range it responds the cell, out of range it raises CoordinateOutOfRange;
nothing else changes. -/
def Obligations.ReadCellRespondsTheCell : Prop :=
  (∀ p c : Byte, decode [0x80, p, c] = .ok (.readCell p.toNat c.toNat)) ∧
  ∀ (s : State) (p c : Nat),
    (InRangeCell p c →
      exec (.readCell p c) s = .next { s with st := .idle, responses := s.responses ++ [.ok (some (cell s p c))] }) ∧
    (¬ InRangeCell p c →
      exec (.readCell p c) s =
        .next { s with st := .idle, responses := s.responses ++ [.error .coordinateOutOfRange] })

/-! ### Drawing commands -/

/-- 41_drawing_engine.md R131: the packets of DRAW_HLINE; with every pixel in range it sets or clears its pixels and responds, every
other pixel and every cell no pixel of the line is in unchanged; with one out of range it raises CoordinateOutOfRange and nothing
else. -/
def Obligations.DrawHlineSetsItsPixels : Prop :=
  (∀ (x y n : Byte) (on : Bool),
    decode [if on then 0x41 else 0x40, x, y, n] = .ok (.drawHline x.toNat y.toNat n.toNat on)) ∧
  ∀ (s : State) (x y length : Nat) (on : Bool),
    ((∀ i, i < length → InRangePixel (x + i) y) → ∃ fb',
      exec (.drawHline x y length on) s =
        .next { s with fb := fb', st := .idle, responses := s.responses ++ [.ok none] } ∧
      (∀ u v, InRangePixel u v →
        pixelAt fb' u v = if v = y ∧ x ≤ u ∧ u < x + length then on else pixelAt s.fb u v) ∧
      (∀ a, (∀ u, x ≤ u → u < x + length → a ≠ cellIndex (y / 8) u) → fb'.read a = s.fb.read a)) ∧
    (∀ i, i < length → ¬ InRangePixel (x + i) y →
      exec (.drawHline x y length on) s =
        .next { s with st := .idle, responses := s.responses ++ [.error .coordinateOutOfRange] })

/-- The source's line (95_test_vectors.md S6, 41_drawing_engine.md R131): on a clear FB it leaves page 1 all 0x04 and every other
page 0x00. -/
def Obligations.FullWidthLineFillsOnePage : Prop :=
  ∀ s : State, (∀ p c, InRangeCell p c → cell s p c = 0) → ∃ t,
    exec (.drawHline 0 10 128 true) s = .next t ∧
    ∀ p c, InRangeCell p c → cell t p c = if p = 1 then 0x04 else 0x00

/-- 41_drawing_engine.md R133: the packets of DRAW_RECT; with every pixel of the region, or of its boundary, in range it sets or
clears them and responds, every other pixel and every cell with no such pixel in it unchanged; with one out of range it raises
CoordinateOutOfRange and nothing else. -/
def Obligations.DrawRectSetsItsPixels : Prop :=
  (∀ (x y w h : Byte) (on filled : Bool),
    decode [if filled then (if on then 0x53 else 0x52) else (if on then 0x51 else 0x50), x, y, w, h] =
      .ok (.drawRect x.toNat y.toNat w.toNat h.toNat on filled)) ∧
  ∀ (s : State) (x y width height : Nat) (on filled : Bool),
    ((∀ i j, i < width → j < height → (filled = true ∨ i = 0 ∨ i + 1 = width ∨ j = 0 ∨ j + 1 = height) →
        InRangePixel (x + i) (y + j)) → ∃ fb',
      exec (.drawRect x y width height on filled) s =
        .next { s with fb := fb', st := .idle, responses := s.responses ++ [.ok none] } ∧
      (∀ i j, i < width → j < height → (filled = true ∨ i = 0 ∨ i + 1 = width ∨ j = 0 ∨ j + 1 = height) →
        pixelAt fb' (x + i) (y + j) = on) ∧
      (∀ u v, InRangePixel u v →
        (∀ i j, i < width → j < height → (filled = true ∨ i = 0 ∨ i + 1 = width ∨ j = 0 ∨ j + 1 = height) →
          (u, v) ≠ (x + i, y + j)) →
        pixelAt fb' u v = pixelAt s.fb u v) ∧
      (∀ a,
        (∀ i j, i < width → j < height → (filled = true ∨ i = 0 ∨ i + 1 = width ∨ j = 0 ∨ j + 1 = height) →
          a ≠ cellIndex ((y + j) / 8) (x + i)) →
        fb'.read a = s.fb.read a)) ∧
    (∀ i j, i < width → j < height → (filled = true ∨ i = 0 ∨ i + 1 = width ∨ j = 0 ∨ j + 1 = height) →
      ¬ InRangePixel (x + i) (y + j) →
      exec (.drawRect x y width height on filled) s =
        .next { s with st := .idle, responses := s.responses ++ [.error .coordinateOutOfRange] })

/-- 41_drawing_engine.md R134: on a clear FB a rectangle in range sets `w * h` pixels filled and `2w + 2h - 4` as an outline of at
least 2 by 2. -/
def Obligations.RectanglePixelCounts : Prop :=
  ∀ (s : State) (x y w h : Nat), (∀ u v, InRangePixel u v → pixel s u v = false) →
    x + w ≤ Config.width → y + h ≤ Config.height →
    (∃ t, exec (.drawRect x y w h true true) s = .next t ∧ pixelsOn t = w * h) ∧
    (1 < w → 1 < h → ∃ t, exec (.drawRect x y w h true false) s = .next t ∧ pixelsOn t = 2 * w + 2 * h - 4)

/-- An outline at most two pixels wide or high is the filled rectangle, and a rectangle one pixel high is a horizontal line
(41_drawing_engine.md R133, 30_encoding.md R88). -/
def Obligations.ThinRectangles : Prop :=
  (∀ (s : State) (x y w h : Nat) (on : Bool), w ≤ 2 ∨ h ≤ 2 →
    exec (.drawRect x y w h on false) s = exec (.drawRect x y w h on true) s) ∧
  (∀ (s : State) (x y length : Nat) (on filled : Bool),
    exec (.drawRect x y length 1 on filled) s = exec (.drawHline x y length on) s)

/-- 41_drawing_engine.md R140: the packets of DRAW_TEXT; with every cell of the text in range it overwrites the `n * GLYPH_WIDTH` cells
with the glyphs' bytes, or with their complements, and responds, every other cell unchanged; with one out of range it raises
CoordinateOutOfRange and nothing else. -/
def Obligations.DrawTextOverwritesItsCells : Prop :=
  (∀ (row column n : Byte) (chars : List Byte) (on : Bool), chars.length = n.toNat →
    decode ((if on then 0x61 else 0x60) :: row :: column :: n :: chars) =
      .ok (.drawText row.toNat column.toNat chars on)) ∧
  ∀ (s : State) (row column : Nat) (chars : List Byte) (on : Bool),
    ((∀ k i, k < chars.length → i < Config.glyphWidth →
        InRangeCell row (column * Config.glyphWidth + k * Config.glyphWidth + i)) → ∃ fb',
      exec (.drawText row column chars on) s =
        .next { s with fb := fb', st := .idle, responses := s.responses ++ [.ok none] } ∧
      (∀ (k i : Nat) (h : k < chars.length), i < Config.glyphWidth →
        ∃ g, (Config.glyph chars[k].toInt)[i]? = some g ∧
          fb'.read (cellIndex row (column * Config.glyphWidth + k * Config.glyphWidth + i)) = if on then g else ~~~g) ∧
      (∀ a, (∀ k i, k < chars.length → i < Config.glyphWidth →
          a ≠ cellIndex row (column * Config.glyphWidth + k * Config.glyphWidth + i)) → fb'.read a = s.fb.read a)) ∧
    (∀ k i, k < chars.length → i < Config.glyphWidth →
      ¬ InRangeCell row (column * Config.glyphWidth + k * Config.glyphWidth + i) →
      exec (.drawText row column chars on) s =
        .next { s with st := .idle, responses := s.responses ++ [.error .coordinateOutOfRange] })

/-- The glyph source (00_scope.md R9, 41_drawing_engine.md R142): every entry has `GLYPH_WIDTH >= 1` bytes, and the character bytes
0x00 and 0x80 to 0xFF select BLANK. -/
def Obligations.GlyphEntries : Prop :=
  1 ≤ Config.glyphWidth ∧ (∀ code, (Config.glyph code).length = Config.glyphWidth) ∧
  (∀ ch : Byte, ch = 0 ∨ 128 ≤ ch.toNat → Config.glyph ch.toInt = Config.blank)

/-- 41_drawing_engine.md R141, second law: a text in range drawn with `on` and then without, or the reverse, leaves every cell of the
text the complement of what the first left. -/
def Obligations.InverseTextComplements : Prop :=
  ∀ (s : State) (row column : Nat) (chars : List Byte) (on : Bool),
    row < Config.pageCount → (column + chars.length) * Config.glyphWidth ≤ Config.width →
    ∃ t u, exec (.drawText row column chars on) s = .next t ∧ exec (.drawText row column chars (!on)) t = .next u ∧
      ∀ c, column * Config.glyphWidth ≤ c → c < (column + chars.length) * Config.glyphWidth →
        cell u row c = ~~~(cell t row c)

/-- 20_memory.md R61: every drawing command, and CLEAR, is idempotent: run again after itself it completes and leaves the same
framebuffer. -/
def Obligations.DrawingIsIdempotent : Prop :=
  ∀ (i : Instr) (s t : State), i ≠ .init → exec i s = .next t →
    ∃ u, exec i t = .next u ∧ ∀ a, u.fb.read a = t.fb.read a

/-! ### Errors -/

/-- 60_exceptions.md R206: what `raise` does, and that it does nothing else. -/
def Obligations.RaiseEndsTheCommand : Prop :=
  ∀ (kind : ErrorKind) (s : State),
    raise kind s = { s with st := .idle, responses := s.responses ++ [.error kind] } ∧
    (Response.error kind).packet = kind.code :: kind.info

/-- 60_exceptions.md R201: each command's CoordinateOutOfRange condition, and that the error is the command's whole effect. -/
def Obligations.OutOfRangeConditions : Prop :=
  ∀ s : State,
    (∀ x y on, exec (.drawPixel x y on) s = .next (raise .coordinateOutOfRange s) ↔ Config.width ≤ x ∨ Config.height ≤ y) ∧
    (∀ x y length on, exec (.drawHline x y length on) s = .next (raise .coordinateOutOfRange s) ↔
      1 ≤ length ∧ (Config.height ≤ y ∨ Config.width < x + length)) ∧
    (∀ x y width height on filled,
      exec (.drawRect x y width height on filled) s = .next (raise .coordinateOutOfRange s) ↔
      1 ≤ width ∧ 1 ≤ height ∧ (Config.width < x + width ∨ Config.height < y + height)) ∧
    (∀ row column chars on, exec (.drawText row column chars on) s = .next (raise .coordinateOutOfRange s) ↔
      1 ≤ chars.length ∧ (Config.pageCount ≤ row ∨ Config.width < (column + chars.length) * Config.glyphWidth)) ∧
    (∀ p c, exec (.readCell p c) s = .next (raise .coordinateOutOfRange s) ↔ Config.pageCount ≤ p ∨ Config.width ≤ c) ∧
    (raise .coordinateOutOfRange s).fb = s.fb

/-- 20_memory.md R58: one address out of range and the command raises the error and writes nothing; an empty set of addresses and it
succeeds and writes nothing, whatever the other operands. -/
def Obligations.AllOrNothing : Prop :=
  ∀ s : State,
    (∀ x y length on i, i < length → ¬ InRangePixel (x + i) y →
      exec (.drawHline x y length on) s = .next (raise .coordinateOutOfRange s)) ∧
    (∀ x y width height on filled i j, i < width → j < height →
      (filled = true ∨ i = 0 ∨ i + 1 = width ∨ j = 0 ∨ j + 1 = height) → ¬ InRangePixel (x + i) (y + j) →
      exec (.drawRect x y width height on filled) s = .next (raise .coordinateOutOfRange s)) ∧
    (∀ row column chars on k i, k < chars.length → i < Config.glyphWidth →
      ¬ InRangeCell row (column * Config.glyphWidth + k * Config.glyphWidth + i) →
      exec (.drawText row column chars on) s = .next (raise .coordinateOutOfRange s)) ∧
    (∀ x y on, exec (.drawHline x y 0 on) s = .next (respond none s)) ∧
    (∀ x y height on filled, exec (.drawRect x y 0 height on filled) s = .next (respond none s)) ∧
    (∀ x y width on filled, exec (.drawRect x y width 0 on filled) s = .next (respond none s)) ∧
    (∀ row column on, exec (.drawText row column [] on) s = .next (respond none s))

/-- What has been observed never matters: two states that differ in LOG, in the responses given (errors among them) and in the other
observations only step to two such states. So no error is sticky (10_state.md R28, R32, 60_exceptions.md R210). -/
def Obligations.ObservationsDoNotMatter : Prop :=
  ∀ s t : State, blockView s = blockView t → viewOutcome blockView (step s) = viewOutcome blockView (step t)

/-! ### INIT -/

/-- INIT accepted (42_init_protocol.md R151, R152): FB is cleared and the sequencer goes to I_START; nothing else changes. -/
def Obligations.InitClearsThenStarts : Prop :=
  ∀ s : State, ∃ fb', exec .init s = .next { s with fb := fb', st := .iStart } ∧
    (∀ p c, InRangeCell p c → fb'.read (cellIndex p c) = 0) ∧ (s.fb.wf → fb' = [])

/-- 42_init_protocol.md R152: its rows, one by one. At an answer one entry is appended to LOG and the response carries the answer;
FB, TXN and K stay. -/
def Obligations.InitTransitionTable : Prop :=
  ∀ s : State,
    (∀ rest, s.st = .idle → s.commands = [0x10] :: rest → ∃ fb',
      step s = .next { s with commands := rest, fb := fb', st := .iStart } ∧
      ∀ p c, InRangeCell p c → fb'.read (cellIndex p c) = 0) ∧
    (s.st = .iStart → step s = .next { s with txn := [], events := s.events ++ [.txBegin], st := .iAddr }) ∧
    (s.st = .iAddr → step s = .next
      { s with
        txn := s.txn ++ [Config.addrByte], events := s.events ++ [.txWrite Config.addrByte Config.ackRequired], st := .iMark }) ∧
    (s.st = .iMark → step s = .next
      { s with
        txn := s.txn ++ [Config.markerCmdStream]
        events := s.events ++ [.txWrite Config.markerCmdStream Config.ackRequired], k := 0, st := .iCmds }) ∧
    (∀ b, s.st = .iCmds → Config.initCmds[s.k]? = some b → step s = .next
      { s with txn := s.txn ++ [b], events := s.events ++ [.txWrite b Config.ackRequired], k := s.k + 1 }) ∧
    (s.st = .iCmds → s.k = Config.initLength → step s = .next { s with st := .iStop }) ∧
    (s.st = .iStop → step s = .next { s with events := s.events ++ [.txEnd], st := .iExec }) ∧
    (s.st = .iExec → ∃ t, step s = .next t ∧ t.st = .idle ∧ t.fb = s.fb ∧ t.txn = s.txn ∧ t.k = s.k ∧
      t.commands = s.commands ∧
      t.log = s.log ++ [⟨s.txn, nextAnswer s⟩] ∧
      t.events = s.events ++ [.txExec s.txn Config.peripheralAddress Config.timeout (nextAnswer s)] ∧
      t.responses = s.responses ++
        [match nextAnswer s with
          | .ok => .ok none
          | .err e => .error (.transportError e)])

/-- 42_init_protocol.md R155: a whole INIT from reset or any other IDLE state, for any answer, in `N_INIT + 7` steps. -/
def Obligations.InitSendsOneTransaction : Prop :=
  ∀ (s : State) (rest : List Packet), s.st = .idle → s.commands = [0x10] :: rest →
    ∃ t, run (Config.initLength + 7) s = .next t ∧ t.st = .idle ∧ t.commands = rest ∧
      (∀ p c, InRangeCell p c → cell t p c = 0) ∧
      t.log = s.log ++ [⟨[Config.addrByte, Config.markerCmdStream] ++ Config.initCmds, upcoming s 0⟩] ∧
      t.events = s.events ++ transactionEvents ([Config.addrByte, Config.markerCmdStream] ++ Config.initCmds) (upcoming s 0) ∧
      t.responses = s.responses ++
        [match upcoming s 0 with
          | .ok => .ok none
          | .err e => .error (.transportError e)] ∧
      ∀ n, upcoming t n = upcoming s (n + 1)

/-! ### REFRESH -/

/-- REFRESH accepted, row T0 of 43_refresh_fsm.md R167: PG is 0 and the sequencer goes to R_START; nothing else changes. -/
def Obligations.RefreshStartsAtPageZero : Prop :=
  ∀ s : State, exec .refresh s = .next { s with pg := 0, st := .rStart }

/-- 43_refresh_fsm.md R167: its rows T0 to T11, one by one. At an answer one entry is appended to LOG; FB, TXN and COL stay. -/
def Obligations.PageWriteTransitionTable : Prop :=
  ∀ s : State,
    (∀ rest, s.st = .idle → s.commands = [0x70] :: rest →
      step s = .next { s with commands := rest, pg := 0, st := .rStart }) ∧
    (s.st = .rStart → step s = .next { s with txn := [], events := s.events ++ [.txBegin], st := .rAddr }) ∧
    (s.st = .rAddr → step s = .next
      { s with
        txn := s.txn ++ [Config.addrByte]
        events := s.events ++ [.txWrite Config.addrByte Config.ackRequired], st := .rMarkCmd }) ∧
    (s.st = .rMarkCmd → step s = .next
      { s with
        txn := s.txn ++ [Config.markerCmdSingle]
        events := s.events ++ [.txWrite Config.markerCmdSingle Config.ackRequired], st := .rPageCmd }) ∧
    (s.st = .rPageCmd → s.pg < Config.pageCount → step s = .next
      { s with
        txn := s.txn ++ [Config.pageCmd s.pg]
        events := s.events ++ [.txWrite (Config.pageCmd s.pg) Config.ackRequired], st := .rMarkData }) ∧
    (s.st = .rMarkData → step s = .next
      { s with
        txn := s.txn ++ [Config.markerData]
        events := s.events ++ [.txWrite Config.markerData Config.ackRequired], col := 0, st := .rData }) ∧
    (s.st = .rData → s.pg < Config.pageCount → s.col < Config.width → step s = .next
      { s with
        txn := s.txn ++ [cell s s.pg s.col]
        events := s.events ++ [.txWrite (cell s s.pg s.col) Config.ackRequired], col := s.col + 1 }) ∧
    (s.st = .rData → s.col = Config.width → step s = .next { s with st := .rStop }) ∧
    (s.st = .rStop → step s = .next { s with events := s.events ++ [.txEnd], st := .rExec }) ∧
    (s.st = .rExec → s.pg < Config.pageCount → ∃ t, step s = .next t ∧ t.fb = s.fb ∧ t.txn = s.txn ∧ t.col = s.col ∧
      t.commands = s.commands ∧
      t.log = s.log ++ [⟨s.txn, nextAnswer s⟩] ∧
      t.events = s.events ++ [.txExec s.txn Config.peripheralAddress Config.timeout (nextAnswer s)] ∧
      (nextAnswer s = .ok → s.pg < Config.pageCount - 1 →
        t.st = .rStart ∧ t.pg = s.pg + 1 ∧ t.responses = s.responses) ∧
      (nextAnswer s = .ok → s.pg = Config.pageCount - 1 →
        t.st = .idle ∧ t.pg = s.pg ∧ t.responses = s.responses ++ [.ok none]) ∧
      (∀ e, nextAnswer s = .err e →
        t.st = .idle ∧ t.pg = s.pg ∧ t.responses = s.responses ++ [.error (.transportError e)]))

/-- PAGE_TXN (30_encoding.md R92): `WIDTH + 4` bytes, the header then the cells of the page in column order; a transaction tells its
page and the page's cells (`PAGE_CMD` is injective, 00_scope.md R9). -/
def Obligations.PageTransactionShape : Prop :=
  (∀ fb p, (pageTxn fb p).length = Config.width + 4) ∧
  (∀ fb p, (pageTxn fb p).take 4 = [Config.addrByte, Config.markerCmdSingle, Config.pageCmd p, Config.markerData]) ∧
  (∀ fb p c, c < Config.width → (pageTxn fb p)[4 + c]? = some (fb.read (cellIndex p c))) ∧
  (∀ fb fb' p q, p < Config.pageCount → q < Config.pageCount → pageTxn fb p = pageTxn fb' q →
    p = q ∧ ∀ c, c < Config.width → fb.read (cellIndex p c) = fb'.read (cellIndex p c))

/-- 43_refresh_fsm.md R172, R173: where every answer is Ok, a whole REFRESH takes `1 + 8 * 136` steps, sends one transaction per page
in order, leaves FB as it was and responds Ok. -/
def Obligations.RefreshSendsEveryPage : Prop :=
  ∀ (s : State) (rest : List Packet), s.st = .idle → s.commands = [0x70] :: rest →
    (∀ p, p < Config.pageCount → upcoming s p = .ok) →
    ∃ t, run (1 + Config.pageCount * (Config.width + 8)) s = .next t ∧ t.st = .idle ∧ t.commands = rest ∧ t.fb = s.fb ∧
      t.log = s.log ++ (List.range Config.pageCount).map (fun p => ⟨pageTxn s.fb p, .ok⟩) ∧
      t.events = s.events ++ (List.range Config.pageCount).flatMap (fun p => transactionEvents (pageTxn s.fb p) .ok) ∧
      t.responses = s.responses ++ [.ok none] ∧
      ∀ n, upcoming t n = upcoming s (n + Config.pageCount)

/-- 43_refresh_fsm.md R171, R173: where the answer for page `f` is the first error, the REFRESH ends with it after `1 + (f + 1) * 136`
steps: `f` transactions answered Ok, one answered with the error, no later page begun, FB as it was. -/
def Obligations.RefreshStopsAtTheFirstFailure : Prop :=
  ∀ (s : State) (rest : List Packet) (f : Nat) (e : TransportErrorInfo), s.st = .idle → s.commands = [0x70] :: rest →
    f < Config.pageCount → (∀ p, p < f → upcoming s p = .ok) → upcoming s f = .err e →
    ∃ t, run (1 + (f + 1) * (Config.width + 8)) s = .next t ∧ t.st = .idle ∧ t.commands = rest ∧ t.fb = s.fb ∧
      t.log = s.log ++ (List.range f).map (fun p => ⟨pageTxn s.fb p, .ok⟩) ++ [⟨pageTxn s.fb f, .err e⟩] ∧
      t.events = s.events ++ (List.range f).flatMap (fun p => transactionEvents (pageTxn s.fb p) .ok) ++
        transactionEvents (pageTxn s.fb f) (.err e) ∧
      t.responses = s.responses ++ [.error (.transportError e)] ∧
      ∀ n, upcoming t n = upcoming s (n + (f + 1))

/-- 43_refresh_fsm.md R174, the source's failure scenario: where the Bus Transport fails on page 3 the REFRESH ends with that failure,
LOG grows by four entries, pages 0, 1 and 2 answered Ok and page 3 with the error, and nothing more is sent. -/
def Obligations.FailureOnPageThree : Prop :=
  ∀ (s : State) (rest : List Packet) (e : TransportErrorInfo), s.st = .idle → s.commands = [0x70] :: rest →
    upcoming s 0 = .ok → upcoming s 1 = .ok → upcoming s 2 = .ok → upcoming s 3 = .err e →
    ∃ t, run (1 + 4 * (Config.width + 8)) s = .next t ∧ t.st = .idle ∧
      t.responses = s.responses ++ [.error (.transportError e)] ∧
      t.log = s.log ++ [⟨pageTxn s.fb 0, .ok⟩, ⟨pageTxn s.fb 1, .ok⟩, ⟨pageTxn s.fb 2, .ok⟩, ⟨pageTxn s.fb 3, .err e⟩] ∧
      ∃ sent, t.events = s.events ++ sent ∧ sent.count .txBegin = 4

/-- 43_refresh_fsm.md R175: the data bytes (from payload index 4 on) of a successful REFRESH's transactions, in order, are the cells
in row-major order, which READ_CELL responds one by one. -/
def Obligations.RefreshReadsBackRowMajor : Prop :=
  ∀ (s : State) (rest : List Packet), s.st = .idle → s.commands = [0x70] :: rest →
    (∀ p, p < Config.pageCount → upcoming s p = .ok) →
    (∃ t, run (1 + Config.pageCount * (Config.width + 8)) s = .next t ∧
      (t.log.drop s.log.length).flatMap (fun entry => entry.bytes.drop 4) = allCells.map fun q => cell s q.1 q.2) ∧
    allCells.length = Config.pageCount * Config.width ∧
    (∀ p c, InRangeCell p c → allCells[p * Config.width + c]? = some (p, c)) ∧
    (∀ q ∈ allCells, ∃ t, exec (.readCell q.1 q.2) s = .next t ∧ t.responses = s.responses ++ [.ok (some (cell s q.1 q.2))])

/-! ### Rules of the whole machine -/

/-- Only INIT, CLEAR and the drawing commands change FB (10_state.md R22): no step of the sequencer, no REFRESH, no READ_CELL and no
illegal packet does. -/
def Obligations.OnlyDrawingChangesFb : Prop :=
  ∀ s t : State, step s = .next t →
    (s.st = .idle → ∀ p rest, s.commands = p :: rest →
      decode p = .ok .refresh ∨ (∃ page col, decode p = .ok (.readCell page col)) ∨ ∃ e, decode p = .error e) →
    t.fb = s.fb

/-- LOG grows only where the Bus Transport answers, by the transaction handed over and its answer (10_state.md R30, R32). -/
def Obligations.LogGrowsOnlyAtAnAnswer : Prop :=
  ∀ s t : State, step s = .next t →
    (s.st = .iExec ∨ s.st = .rExec → t.log = s.log ++ [⟨s.txn, nextAnswer s⟩]) ∧
    (s.st ≠ .iExec → s.st ≠ .rExec → t.log = s.log)

/-- The six commands that do no bus I/O are one step from IDLE to IDLE and touch FB and the responses only (10_state.md R23,
20_memory.md R62). Of FB they touch only the cells they address; one that ends in an error, that addresses no cell, or that is a
READ_CELL leaves FB as it was. -/
def Obligations.NonBusCommandsAreOneStep : Prop :=
  ∀ (i : Instr) (s : State), s.st = .idle → i ≠ .init → i ≠ .refresh → ∃ fb' r,
    exec i s = .next { s with fb := fb', responses := s.responses ++ [r] } ∧
    (∀ a, a ∉ writtenCells i → fb'.read a = s.fb.read a) ∧
    (writtenCells i = [] → fb' = s.fb) ∧
    (∀ kind, r = .error kind → fb' = s.fb) ∧
    (∀ page col, i = .readCell page col → fb' = s.fb)

/-- The invariant holds after reset. Its ghost parts (`boot`, the display) are the model's, log 13. -/
def Obligations.InvariantAtReset : Prop := MachineInv State.reset

/-- Every step keeps the invariant: 43_refresh_fsm.md R168, and for the ghosts `boot` and DISP (the fields `disp_wf`, `boot_fresh`,
`boot_kept` and `pages_shown`) the model's own reading of the display and of the boot order, which is log 13. -/
def Obligations.StepKeepsTheInvariant : Prop := ∀ s t : State, MachineInv s → step s = .next t → MachineInv t

/-- A state that meets the invariant never stops: no port is used out of range and the sequencer always has a row. -/
def Obligations.InvariantExcludesEveryStop : Prop := ∀ s : State, MachineInv s → ∃ t, step s = .next t

/-- 43_refresh_fsm.md R176: every command in progress is over after at most the steps of a whole REFRESH or INIT. -/
def Obligations.EveryCommandReturnsToIdle : Prop :=
  ∀ s : State, MachineInv s → ∃ n t, n ≤ max (1 + Config.pageCount * (Config.width + 8)) (Config.initLength + 7) ∧
    run n s = .next t ∧ t.st = .idle

/-! ### The display (10_state.md R33; the model's reading of it is log 13) -/

/-- The display changes only where the Bus Transport answers: no drawing command, no CLEAR and no illegal packet changes it
(40_framebuffer_ops.md R111, 60_exceptions.md R207); and how an answer moves the boot order: failed INITs leave it open, the INIT
answered Ok sets it, REFRESHes keep it, anything else breaks it (the model's reading of 70_reset_and_hazards.md R235, log 13). -/
def Obligations.DisplayChangesOnlyAtAnAnswer : Prop :=
  ∀ s t : State, step s = .next t →
    (s.st ≠ .iExec → s.st ≠ .rExec → t.disp = s.disp ∧ t.boot = s.boot) ∧
    (s.st = .iExec → s.boot = .fresh → nextAnswer s = .ok → t.boot = .kept) ∧
    (s.st = .iExec → s.boot = .fresh → nextAnswer s ≠ .ok → t.boot = .fresh) ∧
    (s.st = .iExec → s.boot ≠ .fresh → t.boot = .broken) ∧
    (s.st = .rExec → s.boot = .kept → t.boot = .kept) ∧
    (s.st = .rExec → s.boot ≠ .kept → t.boot = .broken)

/-- The model's reading of the display and of the boot order is log 13 (10_state.md R33, 93 G5, U5, U8). In the boot order
(70_reset_and_hazards.md R235), after a REFRESH all of whose answers were Ok the display shows FB; after one
that failed at page `f` it shows FB on the pages before `f` and what it showed on the pages after `f` (60_exceptions.md R207). -/
def Obligations.RefreshReachesTheDisplay : Prop :=
  ∀ (s : State) (rest : List Packet), s.st = .idle → s.boot = .kept → s.commands = [0x70] :: rest →
    ((∀ p, p < Config.pageCount → upcoming s p = .ok) →
      ∃ t, run (1 + Config.pageCount * (Config.width + 8)) s = .next t ∧ t.boot = .kept ∧
        ∀ p c, InRangeCell p c → shown t p c = cell s p c) ∧
    (∀ f e, f < Config.pageCount → (∀ p, p < f → upcoming s p = .ok) → upcoming s f = .err e →
      ∃ t, run (1 + (f + 1) * (Config.width + 8)) s = .next t ∧ t.boot = .kept ∧
        (∀ p c, p < f → c < Config.width → shown t p c = cell s p c) ∧
        (∀ p c, f < p → InRangeCell p c → shown t p c = shown s p c))
end

