-- ==== Sys2Proof/Laws/Decode.lean ====
section
/-! SUPPORT. The fields of an opcode byte and of an operand byte read back what the encoder put there, and the reverse. -/

namespace Sys2Proof

@[simp] theorem opcField_opcodeByte (opc : BitVec 4) (filled on : Bool) : opcField (opcodeByte opc filled on) = opc := by
  revert opc filled on; decide

@[simp] theorem rsvField_opcodeByte (opc : BitVec 4) (filled on : Bool) : rsvField (opcodeByte opc filled on) = 0 := by
  revert opc filled on; decide

@[simp] theorem filledField_opcodeByte (opc : BitVec 4) (filled on : Bool) :
    filledField (opcodeByte opc filled on) = filled := by
  revert opc filled on; decide

@[simp] theorem onField_opcodeByte (opc : BitVec 4) (filled on : Bool) : onField (opcodeByte opc filled on) = on := by
  revert opc filled on; decide

/-- A byte whose reserved bits are 0 is the opcode byte of its fields. -/
theorem opcodeByte_fields (b : Byte) (h : rsvField b = 0) : opcodeByte (opcField b) (filledField b) (onField b) = b := by
  revert b; decide +kernel

theorem operandByte_toNat {v : Nat} (h : operandFits v = true) : (operandByte v).toNat = v := by
  have h' : v < 256 := of_decide_eq_true h
  simp [operandByte, Nat.mod_eq_of_lt h']

@[simp] theorem operandByte_of_toNat (b : Byte) : operandByte b.toNat = b := by
  simp [operandByte]

theorem operandFits_toNat (b : Byte) : operandFits b.toNat = true := decide_eq_true b.isLt

/-- The value of OPC for a command (30_encoding.md R84). -/
def Opcode.code : Opcode → BitVec 4
  | .init => 1
  | .clear => 2
  | .drawPixel => 3
  | .drawHline => 4
  | .drawRect => 5
  | .drawText => 6
  | .refresh => 7
  | .readCell => 8

@[simp] theorem opcodeOf_code (op : Opcode) : opcodeOf op.code = some op := by cases op <;> rfl

/-- The opcode map read backwards (30_encoding.md R84). -/
theorem eq_code_of_opcodeOf {opc : BitVec 4} {op : Opcode} (h : opcodeOf opc = some op) : opc = op.code := by
  have all : ∀ o : BitVec 4, (opcodeOf o).all fun q => decide (o = q.code) := by decide
  have := all opc
  rw [h] at this
  exact of_decide_eq_true this

end Sys2Proof
end

