-- ==== Sys2Proof/Laws/State.lean ====
section
/-! SUPPORT. What each named state update leaves in each field of the state: one lemma per field per update, so that no proof
unfolds a record update. -/

namespace Sys2Proof.Machine

/-! ### `respond` -/

@[simp] theorem respond_fb (v : Option Byte) (s : State) : (respond v s).fb = s.fb := rfl
@[simp] theorem respond_st (v : Option Byte) (s : State) : (respond v s).st = .idle := rfl
@[simp] theorem respond_pg (v : Option Byte) (s : State) : (respond v s).pg = s.pg := rfl
@[simp] theorem respond_col (v : Option Byte) (s : State) : (respond v s).col = s.col := rfl
@[simp] theorem respond_k (v : Option Byte) (s : State) : (respond v s).k = s.k := rfl
@[simp] theorem respond_txn (v : Option Byte) (s : State) : (respond v s).txn = s.txn := rfl
@[simp] theorem respond_commands (v : Option Byte) (s : State) : (respond v s).commands = s.commands := rfl
@[simp] theorem respond_answers (v : Option Byte) (s : State) : (respond v s).answers = s.answers := rfl
@[simp] theorem respond_answerIndex (v : Option Byte) (s : State) : (respond v s).answerIndex = s.answerIndex := rfl
@[simp] theorem respond_log (v : Option Byte) (s : State) : (respond v s).log = s.log := rfl
@[simp] theorem respond_events (v : Option Byte) (s : State) : (respond v s).events = s.events := rfl
@[simp] theorem respond_responses (v : Option Byte) (s : State) : (respond v s).responses = s.responses ++ [.ok v] := rfl
@[simp] theorem respond_boot (v : Option Byte) (s : State) : (respond v s).boot = s.boot := rfl
@[simp] theorem respond_disp (v : Option Byte) (s : State) : (respond v s).disp = s.disp := rfl
@[simp] theorem respond_freeIndex (v : Option Byte) (s : State) : (respond v s).freeIndex = s.freeIndex := rfl

/-! ### `raise` -/

@[simp] theorem raise_fb (e : ErrorKind) (s : State) : (raise e s).fb = s.fb := rfl
@[simp] theorem raise_st (e : ErrorKind) (s : State) : (raise e s).st = .idle := rfl
@[simp] theorem raise_pg (e : ErrorKind) (s : State) : (raise e s).pg = s.pg := rfl
@[simp] theorem raise_col (e : ErrorKind) (s : State) : (raise e s).col = s.col := rfl
@[simp] theorem raise_k (e : ErrorKind) (s : State) : (raise e s).k = s.k := rfl
@[simp] theorem raise_txn (e : ErrorKind) (s : State) : (raise e s).txn = s.txn := rfl
@[simp] theorem raise_commands (e : ErrorKind) (s : State) : (raise e s).commands = s.commands := rfl
@[simp] theorem raise_answers (e : ErrorKind) (s : State) : (raise e s).answers = s.answers := rfl
@[simp] theorem raise_answerIndex (e : ErrorKind) (s : State) : (raise e s).answerIndex = s.answerIndex := rfl
@[simp] theorem raise_log (e : ErrorKind) (s : State) : (raise e s).log = s.log := rfl
@[simp] theorem raise_events (e : ErrorKind) (s : State) : (raise e s).events = s.events := rfl
@[simp] theorem raise_responses (e : ErrorKind) (s : State) : (raise e s).responses = s.responses ++ [.error e] := rfl
@[simp] theorem raise_boot (e : ErrorKind) (s : State) : (raise e s).boot = s.boot := rfl
@[simp] theorem raise_disp (e : ErrorKind) (s : State) : (raise e s).disp = s.disp := rfl
@[simp] theorem raise_freeIndex (e : ErrorKind) (s : State) : (raise e s).freeIndex = s.freeIndex := rfl

/-! ### `txBegin` -/

@[simp] theorem txBegin_fb (s : State) : (txBegin s).fb = s.fb := rfl
@[simp] theorem txBegin_st (s : State) : (txBegin s).st = s.st := rfl
@[simp] theorem txBegin_pg (s : State) : (txBegin s).pg = s.pg := rfl
@[simp] theorem txBegin_col (s : State) : (txBegin s).col = s.col := rfl
@[simp] theorem txBegin_k (s : State) : (txBegin s).k = s.k := rfl
@[simp] theorem txBegin_txn (s : State) : (txBegin s).txn = [] := rfl
@[simp] theorem txBegin_commands (s : State) : (txBegin s).commands = s.commands := rfl
@[simp] theorem txBegin_answers (s : State) : (txBegin s).answers = s.answers := rfl
@[simp] theorem txBegin_answerIndex (s : State) : (txBegin s).answerIndex = s.answerIndex := rfl
@[simp] theorem txBegin_log (s : State) : (txBegin s).log = s.log := rfl
@[simp] theorem txBegin_events (s : State) : (txBegin s).events = s.events ++ [.txBegin] := rfl
@[simp] theorem txBegin_responses (s : State) : (txBegin s).responses = s.responses := rfl
@[simp] theorem txBegin_boot (s : State) : (txBegin s).boot = s.boot := rfl
@[simp] theorem txBegin_disp (s : State) : (txBegin s).disp = s.disp := rfl
@[simp] theorem txBegin_freeIndex (s : State) : (txBegin s).freeIndex = s.freeIndex := rfl

/-! ### `txWrite` -/

@[simp] theorem txWrite_fb (b : Byte) (s : State) : (txWrite b s).fb = s.fb := rfl
@[simp] theorem txWrite_st (b : Byte) (s : State) : (txWrite b s).st = s.st := rfl
@[simp] theorem txWrite_pg (b : Byte) (s : State) : (txWrite b s).pg = s.pg := rfl
@[simp] theorem txWrite_col (b : Byte) (s : State) : (txWrite b s).col = s.col := rfl
@[simp] theorem txWrite_k (b : Byte) (s : State) : (txWrite b s).k = s.k := rfl
@[simp] theorem txWrite_txn (b : Byte) (s : State) : (txWrite b s).txn = s.txn ++ [b] := rfl
@[simp] theorem txWrite_commands (b : Byte) (s : State) : (txWrite b s).commands = s.commands := rfl
@[simp] theorem txWrite_answers (b : Byte) (s : State) : (txWrite b s).answers = s.answers := rfl
@[simp] theorem txWrite_answerIndex (b : Byte) (s : State) : (txWrite b s).answerIndex = s.answerIndex := rfl
@[simp] theorem txWrite_log (b : Byte) (s : State) : (txWrite b s).log = s.log := rfl
@[simp] theorem txWrite_events (b : Byte) (s : State) : (txWrite b s).events = s.events ++ [.txWrite b Config.ackRequired] := rfl
@[simp] theorem txWrite_responses (b : Byte) (s : State) : (txWrite b s).responses = s.responses := rfl
@[simp] theorem txWrite_boot (b : Byte) (s : State) : (txWrite b s).boot = s.boot := rfl
@[simp] theorem txWrite_disp (b : Byte) (s : State) : (txWrite b s).disp = s.disp := rfl
@[simp] theorem txWrite_freeIndex (b : Byte) (s : State) : (txWrite b s).freeIndex = s.freeIndex := rfl

/-! ### `txEnd` -/

@[simp] theorem txEnd_fb (s : State) : (txEnd s).fb = s.fb := rfl
@[simp] theorem txEnd_st (s : State) : (txEnd s).st = s.st := rfl
@[simp] theorem txEnd_pg (s : State) : (txEnd s).pg = s.pg := rfl
@[simp] theorem txEnd_col (s : State) : (txEnd s).col = s.col := rfl
@[simp] theorem txEnd_k (s : State) : (txEnd s).k = s.k := rfl
@[simp] theorem txEnd_txn (s : State) : (txEnd s).txn = s.txn := rfl
@[simp] theorem txEnd_commands (s : State) : (txEnd s).commands = s.commands := rfl
@[simp] theorem txEnd_answers (s : State) : (txEnd s).answers = s.answers := rfl
@[simp] theorem txEnd_answerIndex (s : State) : (txEnd s).answerIndex = s.answerIndex := rfl
@[simp] theorem txEnd_log (s : State) : (txEnd s).log = s.log := rfl
@[simp] theorem txEnd_events (s : State) : (txEnd s).events = s.events ++ [.txEnd] := rfl
@[simp] theorem txEnd_responses (s : State) : (txEnd s).responses = s.responses := rfl
@[simp] theorem txEnd_boot (s : State) : (txEnd s).boot = s.boot := rfl
@[simp] theorem txEnd_disp (s : State) : (txEnd s).disp = s.disp := rfl
@[simp] theorem txEnd_freeIndex (s : State) : (txEnd s).freeIndex = s.freeIndex := rfl

/-! ### `txExec` -/

@[simp] theorem txExec_fb (s : State) : (txExec s).fb = s.fb := rfl
@[simp] theorem txExec_st (s : State) : (txExec s).st = s.st := rfl
@[simp] theorem txExec_pg (s : State) : (txExec s).pg = s.pg := rfl
@[simp] theorem txExec_col (s : State) : (txExec s).col = s.col := rfl
@[simp] theorem txExec_k (s : State) : (txExec s).k = s.k := rfl
@[simp] theorem txExec_txn (s : State) : (txExec s).txn = s.txn := rfl
@[simp] theorem txExec_commands (s : State) : (txExec s).commands = s.commands := rfl
@[simp] theorem txExec_answers (s : State) : (txExec s).answers = s.answers.tail := rfl
@[simp] theorem txExec_answerIndex (s : State) : (txExec s).answerIndex = if s.answers.isEmpty then s.answerIndex + 1 else s.answerIndex := rfl
@[simp] theorem txExec_log (s : State) : (txExec s).log = s.log ++ [⟨s.txn, nextAnswer s⟩] := rfl
@[simp] theorem txExec_events (s : State) : (txExec s).events = s.events ++ [.txExec s.txn Config.peripheralAddress Config.timeout (nextAnswer s)] := rfl
@[simp] theorem txExec_responses (s : State) : (txExec s).responses = s.responses := rfl
@[simp] theorem txExec_boot (s : State) : (txExec s).boot = s.boot := rfl
@[simp] theorem txExec_disp (s : State) : (txExec s).disp = s.disp := rfl
@[simp] theorem txExec_freeIndex (s : State) : (txExec s).freeIndex = s.freeIndex := rfl

/-! ### `displayLost` -/

@[simp] theorem displayLost_fb (cells : List (Nat × Nat)) (s : State) : (displayLost cells s).fb = s.fb := rfl
@[simp] theorem displayLost_st (cells : List (Nat × Nat)) (s : State) : (displayLost cells s).st = s.st := rfl
@[simp] theorem displayLost_pg (cells : List (Nat × Nat)) (s : State) : (displayLost cells s).pg = s.pg := rfl
@[simp] theorem displayLost_col (cells : List (Nat × Nat)) (s : State) : (displayLost cells s).col = s.col := rfl
@[simp] theorem displayLost_k (cells : List (Nat × Nat)) (s : State) : (displayLost cells s).k = s.k := rfl
@[simp] theorem displayLost_txn (cells : List (Nat × Nat)) (s : State) : (displayLost cells s).txn = s.txn := rfl
@[simp] theorem displayLost_commands (cells : List (Nat × Nat)) (s : State) : (displayLost cells s).commands = s.commands := rfl
@[simp] theorem displayLost_answers (cells : List (Nat × Nat)) (s : State) : (displayLost cells s).answers = s.answers := rfl
@[simp] theorem displayLost_answerIndex (cells : List (Nat × Nat)) (s : State) : (displayLost cells s).answerIndex = s.answerIndex := rfl
@[simp] theorem displayLost_log (cells : List (Nat × Nat)) (s : State) : (displayLost cells s).log = s.log := rfl
@[simp] theorem displayLost_events (cells : List (Nat × Nat)) (s : State) : (displayLost cells s).events = s.events := rfl
@[simp] theorem displayLost_responses (cells : List (Nat × Nat)) (s : State) : (displayLost cells s).responses = s.responses := rfl
@[simp] theorem displayLost_boot (cells : List (Nat × Nat)) (s : State) : (displayLost cells s).boot = s.boot := rfl
@[simp] theorem displayLost_disp (cells : List (Nat × Nat)) (s : State) : (displayLost cells s).disp = s.disp.writeAll
      (cells.map fun q => (cellIndex q.1 q.2, Config.freeDisplayCell s.freeIndex (cellIndex q.1 q.2))) := rfl
@[simp] theorem displayLost_freeIndex (cells : List (Nat × Nat)) (s : State) : (displayLost cells s).freeIndex = s.freeIndex + 1 := rfl

/-! ### `displayPage` -/

@[simp] theorem displayPage_fb (p : Nat) (bytes : List Byte) (s : State) : (displayPage p bytes s).fb = s.fb := rfl
@[simp] theorem displayPage_st (p : Nat) (bytes : List Byte) (s : State) : (displayPage p bytes s).st = s.st := rfl
@[simp] theorem displayPage_pg (p : Nat) (bytes : List Byte) (s : State) : (displayPage p bytes s).pg = s.pg := rfl
@[simp] theorem displayPage_col (p : Nat) (bytes : List Byte) (s : State) : (displayPage p bytes s).col = s.col := rfl
@[simp] theorem displayPage_k (p : Nat) (bytes : List Byte) (s : State) : (displayPage p bytes s).k = s.k := rfl
@[simp] theorem displayPage_txn (p : Nat) (bytes : List Byte) (s : State) : (displayPage p bytes s).txn = s.txn := rfl
@[simp] theorem displayPage_commands (p : Nat) (bytes : List Byte) (s : State) : (displayPage p bytes s).commands = s.commands := rfl
@[simp] theorem displayPage_answers (p : Nat) (bytes : List Byte) (s : State) : (displayPage p bytes s).answers = s.answers := rfl
@[simp] theorem displayPage_answerIndex (p : Nat) (bytes : List Byte) (s : State) : (displayPage p bytes s).answerIndex = s.answerIndex := rfl
@[simp] theorem displayPage_log (p : Nat) (bytes : List Byte) (s : State) : (displayPage p bytes s).log = s.log := rfl
@[simp] theorem displayPage_events (p : Nat) (bytes : List Byte) (s : State) : (displayPage p bytes s).events = s.events := rfl
@[simp] theorem displayPage_responses (p : Nat) (bytes : List Byte) (s : State) : (displayPage p bytes s).responses = s.responses := rfl
@[simp] theorem displayPage_boot (p : Nat) (bytes : List Byte) (s : State) : (displayPage p bytes s).boot = s.boot := rfl
@[simp] theorem displayPage_disp (p : Nat) (bytes : List Byte) (s : State) : (displayPage p bytes s).disp = s.disp.writeAll
      ((List.range Config.width).map fun c => (cellIndex p c, bytes.getD (4 + c) unlistedCell)) := rfl
@[simp] theorem displayPage_freeIndex (p : Nat) (bytes : List Byte) (s : State) : (displayPage p bytes s).freeIndex = s.freeIndex := rfl

/-! ### `displayAfterInit` -/

@[simp] theorem displayAfterInit_fb (a : BusAnswer) (s : State) : (displayAfterInit a s).fb = s.fb := by
  simp only [displayAfterInit, displayLost_fb]
@[simp] theorem displayAfterInit_st (a : BusAnswer) (s : State) : (displayAfterInit a s).st = s.st := by
  simp only [displayAfterInit, displayLost_st]
@[simp] theorem displayAfterInit_pg (a : BusAnswer) (s : State) : (displayAfterInit a s).pg = s.pg := by
  simp only [displayAfterInit, displayLost_pg]
@[simp] theorem displayAfterInit_col (a : BusAnswer) (s : State) : (displayAfterInit a s).col = s.col := by
  simp only [displayAfterInit, displayLost_col]
@[simp] theorem displayAfterInit_k (a : BusAnswer) (s : State) : (displayAfterInit a s).k = s.k := by
  simp only [displayAfterInit, displayLost_k]
@[simp] theorem displayAfterInit_txn (a : BusAnswer) (s : State) : (displayAfterInit a s).txn = s.txn := by
  simp only [displayAfterInit, displayLost_txn]
@[simp] theorem displayAfterInit_commands (a : BusAnswer) (s : State) : (displayAfterInit a s).commands = s.commands := by
  simp only [displayAfterInit, displayLost_commands]
@[simp] theorem displayAfterInit_answers (a : BusAnswer) (s : State) : (displayAfterInit a s).answers = s.answers := by
  simp only [displayAfterInit, displayLost_answers]
@[simp] theorem displayAfterInit_answerIndex (a : BusAnswer) (s : State) : (displayAfterInit a s).answerIndex = s.answerIndex := by
  simp only [displayAfterInit, displayLost_answerIndex]
@[simp] theorem displayAfterInit_log (a : BusAnswer) (s : State) : (displayAfterInit a s).log = s.log := by
  simp only [displayAfterInit, displayLost_log]
@[simp] theorem displayAfterInit_events (a : BusAnswer) (s : State) : (displayAfterInit a s).events = s.events := by
  simp only [displayAfterInit, displayLost_events]
@[simp] theorem displayAfterInit_responses (a : BusAnswer) (s : State) : (displayAfterInit a s).responses = s.responses := by
  simp only [displayAfterInit, displayLost_responses]
@[simp] theorem displayAfterInit_boot (a : BusAnswer) (s : State) : (displayAfterInit a s).boot = bootAfterInit s.boot a := by
  simp only [displayAfterInit, displayLost_boot]
@[simp] theorem displayAfterInit_disp (a : BusAnswer) (s : State) : (displayAfterInit a s).disp = s.disp.writeAll
      (allCells.map fun q => (cellIndex q.1 q.2, Config.freeDisplayCell s.freeIndex (cellIndex q.1 q.2))) := by
  simp only [displayAfterInit, displayLost_disp]
@[simp] theorem displayAfterInit_freeIndex (a : BusAnswer) (s : State) : (displayAfterInit a s).freeIndex = s.freeIndex + 1 := by
  simp only [displayAfterInit, displayLost_freeIndex]

/-! ### `displayAfterPage`: it touches the ghost display, its counter and `boot` only -/

@[simp] theorem displayAfterPage_fb (a : BusAnswer) (s : State) : (displayAfterPage a s).fb = s.fb := by
  unfold displayAfterPage; split <;> simp only [displayPage_fb, displayLost_fb]
@[simp] theorem displayAfterPage_st (a : BusAnswer) (s : State) : (displayAfterPage a s).st = s.st := by
  unfold displayAfterPage; split <;> simp only [displayPage_st, displayLost_st]
@[simp] theorem displayAfterPage_pg (a : BusAnswer) (s : State) : (displayAfterPage a s).pg = s.pg := by
  unfold displayAfterPage; split <;> simp only [displayPage_pg, displayLost_pg]
@[simp] theorem displayAfterPage_col (a : BusAnswer) (s : State) : (displayAfterPage a s).col = s.col := by
  unfold displayAfterPage; split <;> simp only [displayPage_col, displayLost_col]
@[simp] theorem displayAfterPage_k (a : BusAnswer) (s : State) : (displayAfterPage a s).k = s.k := by
  unfold displayAfterPage; split <;> simp only [displayPage_k, displayLost_k]
@[simp] theorem displayAfterPage_txn (a : BusAnswer) (s : State) : (displayAfterPage a s).txn = s.txn := by
  unfold displayAfterPage; split <;> simp only [displayPage_txn, displayLost_txn]
@[simp] theorem displayAfterPage_commands (a : BusAnswer) (s : State) : (displayAfterPage a s).commands = s.commands := by
  unfold displayAfterPage; split <;> simp only [displayPage_commands, displayLost_commands]
@[simp] theorem displayAfterPage_answers (a : BusAnswer) (s : State) : (displayAfterPage a s).answers = s.answers := by
  unfold displayAfterPage; split <;> simp only [displayPage_answers, displayLost_answers]
@[simp] theorem displayAfterPage_answerIndex (a : BusAnswer) (s : State) : (displayAfterPage a s).answerIndex = s.answerIndex := by
  unfold displayAfterPage; split <;> simp only [displayPage_answerIndex, displayLost_answerIndex]
@[simp] theorem displayAfterPage_log (a : BusAnswer) (s : State) : (displayAfterPage a s).log = s.log := by
  unfold displayAfterPage; split <;> simp only [displayPage_log, displayLost_log]
@[simp] theorem displayAfterPage_events (a : BusAnswer) (s : State) : (displayAfterPage a s).events = s.events := by
  unfold displayAfterPage; split <;> simp only [displayPage_events, displayLost_events]
@[simp] theorem displayAfterPage_responses (a : BusAnswer) (s : State) : (displayAfterPage a s).responses = s.responses := by
  unfold displayAfterPage; split <;> simp only [displayPage_responses, displayLost_responses]

@[simp] theorem displayAfterPage_boot (a : BusAnswer) (s : State) :
    (displayAfterPage a s).boot = bootAfterPage s.boot := by
  cases hb : s.boot <;> cases a <;> simp [displayAfterPage, hb, bootAfterPage]

/-- In the boot order an answer Ok puts the transaction's data on the display. -/
theorem displayAfterPage_kept_ok (s : State) (h : s.boot = .kept) :
    displayAfterPage .ok s = displayPage s.pg s.txn s := by
  simp [displayAfterPage, h]

/-- In the boot order an error leaves the page unspecified. -/
theorem displayAfterPage_kept_err (s : State) (e : TransportErrorInfo) (h : s.boot = .kept) :
    displayAfterPage (.err e) s = displayLost (pageCells s.pg) s := by
  simp [displayAfterPage, h]

/-- The display after a page depends on the boot order, the page, the transaction and the display only. -/
theorem displayAfterPage_congr {s t : State} (a : BusAnswer) (hb : s.boot = t.boot) (hp : s.pg = t.pg) (hx : s.txn = t.txn)
    (hd : s.disp = t.disp) (hf : s.freeIndex = t.freeIndex) :
    (displayAfterPage a s).disp = (displayAfterPage a t).disp ∧
      (displayAfterPage a s).freeIndex = (displayAfterPage a t).freeIndex := by
  unfold displayAfterPage
  rw [hb]
  split <;> simp only [displayPage_disp, displayPage_freeIndex, displayLost_disp, displayLost_freeIndex, hp, hx, hd, hf,
    and_self]

/-! ### The answer -/

/-- The answer depends on the list of answers and the counter only. -/
theorem nextAnswer_congr {s t : State} (h : s.answers = t.answers) (hi : s.answerIndex = t.answerIndex) :
    nextAnswer s = nextAnswer t := by
  simp only [nextAnswer, h, hi]

theorem nextAnswer_cons (s : State) (a : BusAnswer) (rest : List BusAnswer) (h : s.answers = a :: rest) :
    nextAnswer s = a := by simp [nextAnswer, h]

theorem nextAnswer_nil (s : State) (h : s.answers = []) : nextAnswer s = Config.busAnswer s.answerIndex := by
  simp [nextAnswer, h]

theorem upcoming_zero (s : State) : upcoming s 0 = nextAnswer s := by
  unfold upcoming nextAnswer; cases s.answers <;> simp

/-- Taking an answer moves every later one up by one. -/
theorem upcoming_txExec (s : State) (n : Nat) : upcoming (txExec s) n = upcoming s (n + 1) := by
  unfold upcoming
  cases h : s.answers with
  | nil => simp [h]; congr 1; omega
  | cons a rest => simp [h]

/-- `upcoming` reads the list of answers and the counter only. -/
theorem upcoming_congr (s t : State) (h : s.answers = t.answers) (hi : s.answerIndex = t.answerIndex) (n : Nat) :
    upcoming s n = upcoming t n := by
  simp only [upcoming, h, hi]

/-! ### Outcomes -/

@[simp] theorem andThen_next {α β : Type} (a : α) (f : α → Host.Outcome β Fault Refusal) : andThen (.next a) f = f a := rfl

@[simp] theorem andThen_fault {α β : Type} (r : Fault) (f : α → Host.Outcome β Fault Refusal) :
    andThen (.fault r) f = .fault r := rfl

@[simp] theorem andThen_refused {α β : Type} (r : Refusal) (f : α → Host.Outcome β Fault Refusal) :
    andThen (.refused r) f = .refused r := rfl

theorem andThen_eq_next {α β : Type} {o : Host.Outcome α Fault Refusal} {f : α → Host.Outcome β Fault Refusal} {b : β}
    (h : andThen o f = .next b) : ∃ a, o = .next a ∧ f a = .next b := by
  cases o with
  | next a => exact ⟨a, rfl, h⟩
  | fault r => simp at h
  | refused r => simp at h

/-- Running `m + n` steps is running `m` and then `n`. -/
theorem run_add (m n : Nat) (s : State) : run (m + n) s = andThen (run m s) (run n) := by
  induction m generalizing s with
  | zero => simp [run]
  | succ m ih =>
    rw [Nat.succ_add]
    simp only [run]
    cases step s with
    | next a => simp [ih]
    | fault r => rfl
    | refused r => rfl

theorem run_one (s : State) : run 1 s = step s := by
  simp only [run]
  cases step s <;> rfl

/-- The model's own `run` is the host's. -/
theorem run_eq_core_run (n : Nat) (s : State) : run n s = Host.Core.run Sys2Proof.core n s := by
  induction n generalizing s with
  | zero => rfl
  | succ n ih =>
    simp only [run, Host.Core.run, show Sys2Proof.core.step s = step s from rfl]
    cases step s with
    | next a => exact ih a
    | fault r => rfl
    | refused r => rfl

end Sys2Proof.Machine
end

