-- ==== Sys2Proof/Laws/Memory.lean ====
section
/-! SUPPORT. The laws of memory: a read sees the last write to its cell and no other, every operation keeps the canonical form, and
memories in canonical form that read alike are equal. -/

namespace Sys2Proof.Machine

@[simp] theorem Memory.read_nil (a : Nat) : Memory.read [] a = unlistedCell := rfl

@[simp] theorem Memory.read_cons (c : Host.Cell) (m : Memory) (a : Nat) :
    Memory.read (c :: m) a = if c.1 = a then c.2 else m.read a := rfl

theorem Memory.read_of_not_listed (m : Memory) (a : Nat) (h : ∀ c ∈ m, c.1 ≠ a) : m.read a = unlistedCell := by
  induction m with
  | nil => rfl
  | cons c m ih =>
    rw [read_cons, if_neg (h c List.mem_cons_self)]
    exact ih fun d hd => h d (List.mem_cons_of_mem _ hd)

theorem Memory.read_unlist (m : Memory) (a b : Nat) : (m.unlist a).read b = if a = b then unlistedCell else m.read b := by
  unfold Memory.unlist
  induction m with
  | nil => simp
  | cons c m ih =>
    by_cases hc : c.1 = a
    · simp only [List.filter_cons, hc, bne_self_eq_false, Bool.false_eq_true, if_false, ih, read_cons]
      split <;> rfl
    · simp only [List.filter_cons, bne_iff_ne.2 hc, if_true, read_cons, ih]
      by_cases hb : c.1 = b
      · rw [if_pos hb, if_pos hb, if_neg (fun h => hc (hb.trans h.symm))]
      · rw [if_neg hb, if_neg hb]

theorem Memory.read_list (m : Memory) (a : Nat) (v : Byte) (b : Nat) (h : ∀ c ∈ m, c.1 ≠ a) :
    (m.list a v).read b = if a = b then v else m.read b := by
  induction m with
  | nil => simp [Memory.list]
  | cons c m ih =>
    have hc : c.1 ≠ a := h c List.mem_cons_self
    have ih' := ih fun d hd => h d (List.mem_cons_of_mem _ hd)
    unfold Memory.list
    split
    · simp only [read_cons, ih']
      by_cases hb : c.1 = b
      · rw [if_pos hb, if_neg (fun e => hc (hb.trans e.symm)), if_pos hb]
      · rw [if_neg hb, if_neg hb]
    · simp only [read_cons]

theorem Memory.not_listed_unlist (m : Memory) (a : Nat) : ∀ c ∈ m.unlist a, c.1 ≠ a := by
  intro c hc
  simpa [Memory.unlist] using (List.mem_filter.1 hc).2

/-- A read sees a write to its cell and no other (20_memory.md R66), for memories in any form. -/
@[simp] theorem Memory.read_write (m : Memory) (a : Nat) (v : Byte) (b : Nat) :
    (m.write a v).read b = if a = b then v else m.read b := by
  unfold Memory.write
  split
  · next h => rw [read_unlist, h]
  · rw [read_list _ _ _ _ (not_listed_unlist m a), read_unlist]
    split <;> rfl

theorem Memory.read_write_same (m : Memory) (a : Nat) (v : Byte) : (m.write a v).read a = v := by simp

theorem Memory.read_write_other (m : Memory) (a : Nat) (v : Byte) (b : Nat) (h : a ≠ b) :
    (m.write a v).read b = m.read b := by simp [h]

/-! ### The canonical form -/

theorem Memory.wf_nil : Memory.wf [] := ⟨List.Pairwise.nil, fun _ h => absurd h List.not_mem_nil⟩

theorem Memory.wf_unlist (m : Memory) (a : Nat) (h : m.wf) : (m.unlist a).wf :=
  ⟨h.1.filter _, fun c hc => h.2 c (List.mem_filter.1 hc).1⟩

theorem Memory.mem_list (m : Memory) (a : Nat) (v : Byte) (c : Host.Cell) (h : c ∈ m.list a v) : c = (a, v) ∨ c ∈ m := by
  induction m with
  | nil => simpa [Memory.list] using h
  | cons d m ih =>
    unfold Memory.list at h
    split at h
    · rcases List.mem_cons.1 h with h | h
      · exact .inr (h ▸ List.mem_cons_self)
      · exact (ih h).imp_right (List.mem_cons_of_mem _)
    · rcases List.mem_cons.1 h with h | h
      · exact .inl h
      · exact .inr h

theorem Memory.wf_list (m : Memory) (a : Nat) (v : Byte) (h : m.wf) (hn : ∀ c ∈ m, c.1 ≠ a) (ha : a < Config.cellCount)
    (hv : v ≠ unlistedCell) : (m.list a v).wf := by
  refine ⟨?_, fun c hc => ?_⟩
  · induction m with
    | nil => simp [Memory.list]
    | cons d m ih =>
      have hs := List.pairwise_cons.1 h.1
      have hwf : Memory.wf m := ⟨hs.2, fun c hc => h.2 c (List.mem_cons_of_mem _ hc)⟩
      unfold Memory.list
      split
      · next hlt =>
        refine List.pairwise_cons.2 ⟨fun c hc => ?_, ih hwf fun c hc => hn c (List.mem_cons_of_mem _ hc)⟩
        rcases mem_list m a v c hc with rfl | hc
        · exact hlt
        · exact hs.1 c hc
      · next hge =>
        have hlt : a < d.1 := lt_of_le_of_ne (not_lt.1 hge) fun e => hn d List.mem_cons_self e.symm
        refine List.pairwise_cons.2 ⟨fun c hc => ?_, h.1⟩
        rcases List.mem_cons.1 hc with rfl | hc
        · exact hlt
        · exact hlt.trans (hs.1 c hc)
  · rcases mem_list m a v c hc with rfl | hc
    · exact ⟨ha, hv⟩
    · exact h.2 c hc

/-- A write keeps the canonical form. -/
theorem Memory.wf_write (m : Memory) (a : Nat) (v : Byte) (h : m.wf) (ha : a < Config.cellCount) : (m.write a v).wf := by
  unfold Memory.write
  split
  · exact wf_unlist m a h
  · next hv => exact wf_list _ a v (wf_unlist m a h) (not_listed_unlist m a) ha hv

@[simp] theorem Memory.writeAll_nil (m : Memory) : m.writeAll [] = m := by unfold Memory.writeAll; rfl

theorem Memory.writeAll_cons (m : Memory) (w : Nat × Byte) (writes : List (Nat × Byte)) :
    m.writeAll (w :: writes) = (m.write w.1 w.2).writeAll writes := by
  conv_lhs => unfold Memory.writeAll

theorem Memory.wf_writeAll (m : Memory) (writes : List (Nat × Byte)) (h : m.wf)
    (hw : ∀ w ∈ writes, w.1 < Config.cellCount) : (m.writeAll writes).wf := by
  induction writes generalizing m with
  | nil => rwa [writeAll_nil]
  | cons w writes ih =>
    rw [writeAll_cons]
    exact ih _ (wf_write m w.1 w.2 h (hw w List.mem_cons_self)) fun x hx => hw x (List.mem_cons_of_mem _ hx)

/-- A canonical memory lists no cell from `cellCount` on. -/
theorem Memory.read_beyond (m : Memory) (a : Nat) (h : m.wf) (ha : Config.cellCount ≤ a) : m.read a = unlistedCell :=
  read_of_not_listed m a fun c hc e => absurd (h.2 c hc).1 (by omega)

/-- Canonical memories that read alike are the same list. -/
theorem Memory.ext_of_wf (m n : Memory) (hm : m.wf) (hn : n.wf) (h : ∀ a, m.read a = n.read a) : m = n := by
  induction m generalizing n with
  | nil =>
    cases n with
    | nil => rfl
    | cons d n =>
      have := h d.1
      rw [read_nil, read_cons, if_pos rfl] at this
      exact absurd this.symm (hn.2 d List.mem_cons_self).2
  | cons c m ih =>
    have cs := List.pairwise_cons.1 hm.1
    have cm : Memory.wf m := ⟨cs.2, fun x hx => hm.2 x (List.mem_cons_of_mem _ hx)⟩
    cases n with
    | nil =>
      have := h c.1
      rw [read_nil, read_cons, if_pos rfl] at this
      exact absurd this (hm.2 c List.mem_cons_self).2
    | cons d n =>
      have ds := List.pairwise_cons.1 hn.1
      have dn : Memory.wf n := ⟨ds.2, fun x hx => hn.2 x (List.mem_cons_of_mem _ hx)⟩
      have below : ∀ (x : Host.Cell) (l : Memory) (a : Nat), (∀ y ∈ l, x.1 < y.1) → a ≤ x.1 → l.read a = unlistedCell :=
        fun x l a hl ha => read_of_not_listed l a fun y hy e => absurd (hl y hy) (by omega)
      have key : c.1 = d.1 := by
        rcases lt_trichotomy c.1 d.1 with hlt | he | hgt
        · have := h c.1
          rw [read_cons, if_pos rfl, read_cons, if_neg (by omega), below d n c.1 ds.1 hlt.le] at this
          exact absurd this (hm.2 c List.mem_cons_self).2
        · exact he
        · have := h d.1
          rw [read_cons d, if_pos rfl, read_cons, if_neg (by omega), below c m d.1 cs.1 hgt.le] at this
          exact absurd this.symm (hn.2 d List.mem_cons_self).2
      have val : c.2 = d.2 := by
        have := h c.1
        rwa [read_cons, if_pos rfl, read_cons, if_pos key.symm] at this
      have tail : ∀ a, Memory.read m a = Memory.read n a := by
        intro a
        by_cases ha : a = c.1
        · rw [below c m a cs.1 ha.le, below d n a ds.1 (by omega)]
        · have := h a
          rwa [read_cons, if_neg (Ne.symm ha), read_cons, if_neg (by omega)] at this
      rw [ih n cm dn tail, Prod.ext key val]

/-! ### Several writes -/

theorem Memory.writeAll_append (m : Memory) (u w : List (Nat × Byte)) : m.writeAll (u ++ w) = (m.writeAll u).writeAll w := by
  induction u generalizing m with
  | nil => rw [writeAll_nil, List.nil_append]
  | cons x u ih => rw [List.cons_append, writeAll_cons, writeAll_cons, ih]

theorem Memory.read_writeAll_other (m : Memory) (writes : List (Nat × Byte)) (a : Nat) (h : ∀ w ∈ writes, w.1 ≠ a) :
    (m.writeAll writes).read a = m.read a := by
  induction writes generalizing m with
  | nil => rw [writeAll_nil]
  | cons w writes ih =>
    rw [writeAll_cons]
    refine (ih (m.write w.1 w.2) fun x hx => h x (List.mem_cons_of_mem _ hx)).trans ?_
    exact read_write_other m w.1 w.2 a (h w List.mem_cons_self)

/-- Where every write to cell `a` writes `v`, and there is one, the cell holds `v`. -/
theorem Memory.read_writeAll_same (m : Memory) (writes : List (Nat × Byte)) (a : Nat) (v : Byte)
    (hv : ∀ w ∈ writes, w.1 = a → w.2 = v) (h : ∃ w ∈ writes, w.1 = a) : (m.writeAll writes).read a = v := by
  induction writes generalizing m with
  | nil => simp at h
  | cons w writes ih =>
    rw [writeAll_cons]
    by_cases hr : ∃ x ∈ writes, x.1 = a
    · exact ih _ (fun x hx => hv x (List.mem_cons_of_mem _ hx)) hr
    · obtain ⟨x, hx, hxa⟩ := h
      have hw : x = w := (List.mem_cons.1 hx).resolve_right fun hx => hr ⟨x, hx, hxa⟩
      subst hw
      have := read_writeAll_other (m.write x.1 x.2) writes a fun y hy e => hr ⟨y, hy, e⟩
      refine this.trans ?_
      rw [read_write, if_pos hxa]
      exact hv x List.mem_cons_self hxa

/-! ### The memory with given contents -/

theorem memoryOf_wf (content : Nat → Byte) : (memoryOf content).wf := by
  have mem : ∀ (n : Nat) (c : Host.Cell),
      c ∈ ((List.range n).filterMap fun a => if content a = unlistedCell then none else some (a, content a)) →
      c.1 < n ∧ c.2 ≠ unlistedCell := by
    intro n c hc
    obtain ⟨a, ha, hc⟩ := List.mem_filterMap.1 hc
    split at hc
    · simp at hc
    · next hv =>
      obtain rfl := (Option.some.inj hc).symm
      exact ⟨List.mem_range.1 ha, hv⟩
  unfold memoryOf
  refine ⟨?_, mem _⟩
  induction Config.cellCount with
  | zero => simp
  | succ n ih =>
    rw [List.range_succ, List.filterMap_append, List.pairwise_append]
    refine ⟨ih, ?_, fun c hc d hd => ?_⟩
    · simp only [List.filterMap_cons, List.filterMap_nil]
      split <;> simp
    · have h1 := (mem n c hc).1
      simp only [List.filterMap_cons, List.filterMap_nil] at hd
      split at hd
      · simp at hd
      · next hv =>
        split at hv
        · simp at hv
        · obtain rfl := (Option.some.inj hv)
          obtain rfl := List.mem_singleton.1 hd
          exact h1

/-- Below `cellCount`, a cell of `memoryOf content` holds what `content` says. -/
theorem read_memoryOf (content : Nat → Byte) (a : Nat) (ha : a < Config.cellCount) :
    (memoryOf content).read a = content a := by
  have key : ∀ n, Memory.read
      ((List.range n).filterMap fun b => if content b = unlistedCell then none else some (b, content b)) a =
      if a < n then content a else unlistedCell := by
    intro n
    induction n with
    | zero => simp
    | succ n ih =>
      have app : ∀ l r : Memory, (∀ c ∈ r, c.1 = n) → a ≠ n → Memory.read (l ++ r) a = Memory.read l a := by
        intro l r hr hne
        induction l with
        | nil => exact Memory.read_of_not_listed r a fun c hc e => hne (e ▸ hr c hc)
        | cons x l ihl => simp only [List.cons_append, Memory.read_cons, ihl]
      have app' : ∀ l r : Memory, (∀ c ∈ l, c.1 ≠ a) → Memory.read (l ++ r) a = Memory.read r a := by
        intro l r hl
        induction l with
        | nil => rfl
        | cons x l ihl =>
          simp only [List.cons_append, Memory.read_cons, if_neg (hl x List.mem_cons_self)]
          exact ihl fun c hc => hl c (List.mem_cons_of_mem _ hc)
      rw [List.range_succ, List.filterMap_append]
      by_cases hn : a = n
      · subst hn
        rw [app']
        · simp only [List.filterMap_cons, List.filterMap_nil, Nat.lt_succ_self, if_true]
          by_cases hc : content a = unlistedCell
          · simp [hc]
          · simp [hc]
        · intro c hc
          obtain ⟨b, hb, hc⟩ := List.mem_filterMap.1 hc
          split at hc
          · simp at hc
          · obtain rfl := Option.some.inj hc
            exact Nat.ne_of_lt (List.mem_range.1 hb)
      · rw [app _ _ _ hn, ih]
        · by_cases h : a < n
          · rw [if_pos h, if_pos (by omega)]
          · rw [if_neg h, if_neg (by omega)]
        · intro c hc
          simp only [List.filterMap_cons, List.filterMap_nil] at hc
          split at hc
          · simp at hc
          · next hv =>
            split at hv
            · simp at hv
            · obtain rfl := (Option.some.inj hv)
              obtain rfl := List.mem_singleton.1 hc
              rfl
  unfold memoryOf
  have := key Config.cellCount
  rwa [if_pos ha] at this

end Sys2Proof.Machine
end

