-- ==== Sys2Proof/Laws/Operands.lean ====
section
/-! SUPPORT. The operand forms: cells and pixels keep apart, and which addresses each command's set holds. -/

namespace Sys2Proof.Machine

theorem width_eq : Config.width = 128 := rfl
theorem pageCount_eq : Config.pageCount = 8 := rfl
theorem height_eq : Config.height = 64 := rfl
theorem cellCount_eq : Config.cellCount = 1024 := rfl

/-! ### Cells -/

theorem cellIndex_lt {p c : Nat} (h : InRangeCell p c) : cellIndex p c < Config.cellCount := by
  have := h.1; have := h.2
  simp only [cellIndex, width_eq, pageCount_eq, cellCount_eq] at *
  omega

/-- Two cells in range with one index are one cell (20_memory.md R53). -/
theorem cellIndex_inj {p c q d : Nat} (hc : c < Config.width) (hd : d < Config.width) :
    cellIndex p c = cellIndex q d ↔ p = q ∧ c = d := by
  simp only [cellIndex, width_eq] at *
  omega

/-- Every index of a cell is the index of a cell in range. -/
theorem exists_cell {a : Nat} (h : a < Config.cellCount) : ∃ p c, InRangeCell p c ∧ a = cellIndex p c := by
  refine ⟨a / 128, a % 128, ⟨?_, ?_⟩, ?_⟩ <;> simp only [cellIndex, width_eq, pageCount_eq, cellCount_eq] at * <;> omega

/-! ### Pixels -/

/-- PAD answers an address in range for a pixel in range (20_memory.md R51). -/
theorem pad_inRange {x y : Nat} (h : InRangePixel x y) : InRangeCell (pad x y).page (pad x y).col ∧ (pad x y).bit < 8 := by
  have := h.1; have := h.2
  simp only [pad, InRangeCell, width_eq, pageCount_eq, height_eq] at *
  omega

/-- The pixel of a bit in range is in range (20_memory.md R52). -/
theorem pixelOf_inRange {p c b : Nat} (h : InRangeCell p c) (hb : b < 8) : InRangePixel c (8 * p + b) := by
  have := h.1; have := h.2
  simp only [InRangePixel, width_eq, pageCount_eq, height_eq] at *
  omega

theorem pixelAt_pixelOf (fb : Memory) (p c b : Nat) (hb : b < 8) :
    pixelAt fb c (8 * p + b) = (fb.read (cellIndex p c)).getLsbD b := by
  have h1 : (8 * p + b) / 8 = p := by omega
  have h2 : (8 * p + b) % 8 = b := by omega
  simp only [pixelAt, h1, h2]

/-- A cell is its eight pixels. -/
theorem read_eq_of_pixels {m n : Memory} {p c : Nat}
    (h : ∀ b, b < 8 → pixelAt m c (8 * p + b) = pixelAt n c (8 * p + b)) :
    m.read (cellIndex p c) = n.read (cellIndex p c) := by
  refine BitVec.eq_of_getLsbD_eq fun b hb => ?_
  have := h b hb
  rwa [pixelAt_pixelOf _ _ _ _ hb, pixelAt_pixelOf _ _ _ _ hb] at this

/-- Framebuffers that agree on every pixel in range agree on every cell in range. -/
theorem read_eq_of_all_pixels {m n : Memory} (h : ∀ x y, InRangePixel x y → pixelAt m x y = pixelAt n x y)
    {p c : Nat} (hc : InRangeCell p c) : m.read (cellIndex p c) = n.read (cellIndex p c) :=
  read_eq_of_pixels fun _ hb => h _ _ (pixelOf_inRange hc hb)

/-- The bits of a bit mask (20_memory.md R51). -/
theorem getLsbD_bitMask (b j : Nat) (hj : j < 8) : (bitMask b).getLsbD j = decide (j = b) := by
  simp only [bitMask, BitVec.getLsbD_shiftLeft, hj, decide_true, Bool.true_and]
  by_cases h : j < b
  · have : j ≠ b := by omega
    simp [h, this]
  · by_cases he : j = b
    · subst he; simp
    · have : j - b ≠ 0 := by omega
      simp [h, he, this]

/-! ### The sets the commands address -/

theorem mem_allCells {q : Nat × Nat} : q ∈ allCells ↔ InRangeCell q.1 q.2 := by
  obtain ⟨p, c⟩ := q
  simp only [allCells, List.mem_flatMap, List.mem_map, List.mem_range, Prod.mk.injEq]
  constructor
  · rintro ⟨p', hp, c', hc, rfl, rfl⟩; exact ⟨hp, hc⟩
  · rintro ⟨hp, hc⟩; exact ⟨p, hp, c, hc, rfl, rfl⟩

theorem mem_pageCells {p : Nat} {q : Nat × Nat} : q ∈ pageCells p ↔ q.1 = p ∧ q.2 < Config.width := by
  obtain ⟨p', c⟩ := q
  simp only [pageCells, List.mem_map, List.mem_range, Prod.mk.injEq]
  constructor
  · rintro ⟨c', hc, rfl, rfl⟩; exact ⟨rfl, hc⟩
  · rintro ⟨rfl, hc⟩; exact ⟨c, hc, rfl, rfl⟩

theorem mem_hlinePixels {x y length u v : Nat} :
    (u, v) ∈ hlinePixels x y length ↔ v = y ∧ x ≤ u ∧ u < x + length := by
  simp only [hlinePixels, List.mem_map, List.mem_range, Prod.mk.injEq]
  constructor
  · rintro ⟨i, hi, rfl, rfl⟩; omega
  · rintro ⟨rfl, h1, h2⟩; exact ⟨u - x, by omega, by omega, rfl⟩

/-- The condition on pixel `(u, v)` to belong to the set of DRAW_RECT (41_drawing_engine.md R133). -/
theorem mem_rectPixels {x y width height u v : Nat} {filled : Bool} :
    (u, v) ∈ rectPixels x y width height filled ↔
      (x ≤ u ∧ u < x + width ∧ y ≤ v ∧ v < y + height) ∧
        (filled = true ∨ u = x ∨ u + 1 = x + width ∨ v = y ∨ v + 1 = y + height) := by
  simp only [rectPixels, List.mem_flatMap, List.mem_map, List.mem_filter, List.mem_range, Prod.mk.injEq, onBoundary,
    Bool.or_eq_true, beq_iff_eq]
  constructor
  · rintro ⟨j, hj, i, ⟨hi, hb⟩, rfl, rfl⟩
    refine ⟨by omega, ?_⟩
    rcases hb with hb | ((hb | hb) | hb) | hb
    · exact .inl hb
    all_goals omega
  · rintro ⟨h, hb⟩
    refine ⟨v - y, by omega, u - x, ⟨by omega, ?_⟩, by omega, by omega⟩
    rcases hb with hb | hb
    · exact .inl hb
    · right; omega

theorem allInRangePixel_hline {x y length : Nat} :
    AllInRangePixel (hlinePixels x y length) ↔ length = 0 ∨ (y < Config.height ∧ x + length ≤ Config.width) := by
  constructor
  · intro h
    by_cases hl : length = 0
    · exact .inl hl
    · have := h (x + (length - 1), y) (mem_hlinePixels.2 ⟨rfl, by omega, by omega⟩)
      exact .inr ⟨this.2, by have := this.1; dsimp only at this; omega⟩
  · rintro h ⟨u, v⟩ hq
    obtain ⟨rfl, h1, h2⟩ := mem_hlinePixels.1 hq
    rcases h with h | ⟨h3, h4⟩
    · omega
    · exact ⟨by dsimp only; omega, h3⟩

theorem allInRangePixel_rect {x y width height : Nat} {filled : Bool} :
    AllInRangePixel (rectPixels x y width height filled) ↔
      width = 0 ∨ height = 0 ∨ (x + width ≤ Config.width ∧ y + height ≤ Config.height) := by
  constructor
  · intro h
    by_cases hw : width = 0
    · exact .inl hw
    by_cases hh : height = 0
    · exact .inr (.inl hh)
    have := h (x + (width - 1), y + (height - 1))
      (mem_rectPixels.2 ⟨by omega, .inr (.inr (.inl (by omega)))⟩)
    have h1 := this.1
    have h2 := this.2
    dsimp only at h1 h2
    exact .inr (.inr ⟨by omega, by omega⟩)
  · rintro h ⟨u, v⟩ hq
    obtain ⟨hr, -⟩ := mem_rectPixels.1 hq
    rcases h with h | h | h
    · omega
    · omega
    · exact ⟨by dsimp only; omega, by dsimp only; omega⟩

/-! ### DRAW_TEXT's writes -/

theorem glyphWidth_pos : 0 < Config.glyphWidth := Nat.succ_pos _

/-- Character `k`'s column `i` is written at column `c0 + k * GLYPH_WIDTH + i` (41_drawing_engine.md R140). -/
theorem mem_textWrites {row c0 : Nat} {chars : List Byte} {on : Bool} {w : (Nat × Nat) × Byte} :
    w ∈ textWrites row c0 chars on ↔
      ∃ k i, ∃ h : k < chars.length, i < Config.glyphWidth ∧
        w = ((row, c0 + k * Config.glyphWidth + i), glyphCell chars[k] on i) := by
  induction chars generalizing c0 with
  | nil => simp [textWrites]
  | cons ch rest ih =>
    simp only [textWrites, List.mem_append, List.mem_map, List.mem_range, ih]
    constructor
    · rintro (⟨i, hi, rfl⟩ | ⟨k, i, h, hi, rfl⟩)
      · exact ⟨0, i, by simp, hi, by simp⟩
      · refine ⟨k + 1, i, by simp; omega, hi, ?_⟩
        simp only [List.getElem_cons_succ]
        rw [Nat.add_mul, Nat.one_mul]
        congr 2
        omega
    · rintro ⟨k, i, h, hi, rfl⟩
      cases k with
      | zero => exact .inl ⟨i, hi, by simp⟩
      | succ k =>
        refine .inr ⟨k, i, by simpa using h, hi, ?_⟩
        simp only [List.getElem_cons_succ]
        rw [Nat.add_mul, Nat.one_mul]
        congr 2
        omega

theorem mem_textCells {row c0 : Nat} {chars : List Byte} {on : Bool} {p c : Nat} :
    (p, c) ∈ textCells row c0 chars on ↔
      p = row ∧ c0 ≤ c ∧ c < c0 + chars.length * Config.glyphWidth := by
  simp only [textCells, List.mem_map, mem_textWrites]
  have pos := glyphWidth_pos
  constructor
  · rintro ⟨w, ⟨k, i, h, hi, rfl⟩, he⟩
    obtain ⟨rfl, rfl⟩ := Prod.mk.inj he
    have : k * Config.glyphWidth + Config.glyphWidth ≤ chars.length * Config.glyphWidth := by
      rw [← Nat.succ_mul]; exact Nat.mul_le_mul_right _ h
    exact ⟨rfl, by omega, by omega⟩
  · rintro ⟨rfl, h1, h2⟩
    have hlt : (c - c0) / Config.glyphWidth < chars.length := by
      rw [Nat.div_lt_iff_lt_mul pos]; omega
    refine ⟨_, ⟨(c - c0) / Config.glyphWidth, (c - c0) % Config.glyphWidth, hlt, Nat.mod_lt _ pos, rfl⟩, ?_⟩
    have := Nat.div_add_mod (c - c0) Config.glyphWidth
    rw [Nat.mul_comm] at this
    ext <;> simp only
    omega

theorem allInRangeCell_text {row column : Nat} {chars : List Byte} {on : Bool} :
    AllInRangeCell (textCells row (column * Config.glyphWidth) chars on) ↔
      chars = [] ∨ (row < Config.pageCount ∧ (column + chars.length) * Config.glyphWidth ≤ Config.width) := by
  have pos := glyphWidth_pos
  rw [Nat.add_mul]
  constructor
  · intro h
    by_cases hc : chars = []
    · exact .inl hc
    · have hl : 0 < chars.length := List.length_pos_iff.2 hc
      have hm : Config.glyphWidth ≤ chars.length * Config.glyphWidth := Nat.le_mul_of_pos_left _ hl
      have := h (row, column * Config.glyphWidth + (chars.length * Config.glyphWidth - 1))
        (mem_textCells.2 ⟨rfl, by omega, by omega⟩)
      have h2 := this.2
      dsimp only at h2
      exact .inr ⟨this.1, by omega⟩
  · rintro h ⟨p, c⟩ hq
    obtain ⟨rfl, h1, h2⟩ := mem_textCells.1 hq
    rcases h with rfl | ⟨h3, h4⟩
    · simp at h2; omega
    · exact ⟨h3, by dsimp only; omega⟩

/-! ### The cells a command writes -/

theorem pixelCell_eq (x y : Nat) : pixelCell (x, y) = cellIndex (y / 8) x := rfl

@[simp] theorem writtenCells_refresh : writtenCells .refresh = [] := rfl

@[simp] theorem writtenCells_readCell (page col : Nat) : writtenCells (.readCell page col) = [] := rfl

theorem mem_writtenCells_clear {a : Nat} : a ∈ writtenCells .clear ↔ a < Config.cellCount := by
  simp only [writtenCells, List.mem_map]
  constructor
  · rintro ⟨q, hq, rfl⟩
    exact cellIndex_lt (mem_allCells.1 hq)
  · intro h
    obtain ⟨p, c, hpc, rfl⟩ := exists_cell h
    exact ⟨(p, c), mem_allCells.2 hpc, rfl⟩

end Sys2Proof.Machine
end

