-- ==== Sys2Proof/Laws/Ops.lean ====
section
/-! SUPPORT. Everything the framebuffer ports and the loops over them can do, said once. -/

namespace Sys2Proof.Machine

/-! ### Ports (00_scope.md R12) -/

theorem fbRead_of_inRange {fb : Memory} {p c : Nat} (h : InRangeCell p c) : fbRead fb p c = .next (fb.read (cellIndex p c)) :=
  if_pos h

theorem fbRead_of_not_inRange {fb : Memory} {p c : Nat} (h : ¬ InRangeCell p c) :
    fbRead fb p c = .fault (.cellOutOfRange p c) :=
  if_neg h

theorem fbWrite_of_inRange {fb : Memory} {p c : Nat} {v : Byte} (h : InRangeCell p c) :
    fbWrite fb p c v = .next (fb.write (cellIndex p c) v) :=
  if_pos h

theorem fbWrite_of_not_inRange {fb : Memory} {p c : Nat} {v : Byte} (h : ¬ InRangeCell p c) :
    fbWrite fb p c v = .fault (.cellOutOfRange p c) :=
  if_neg h

theorem fbSetBit_of_inRange {fb : Memory} {p c b : Nat} {on : Bool} (h : InRangeCell p c) (hb : b < 8) :
    fbSetBit fb p c b on = .next (fb.write (cellIndex p c) (setBit (fb.read (cellIndex p c)) b on)) := by
  rw [fbSetBit, if_pos hb, fbRead_of_inRange h, andThen_next, fbWrite_of_inRange h]

/-- FBSetBit's effect on the bits of its cell. -/
theorem getLsbD_setBit (v : Byte) (b j : Nat) (on : Bool) (hj : j < 8) :
    (setBit v b on).getLsbD j = if j = b then on else v.getLsbD j := by
  cases on
  · simp only [setBit, Bool.false_eq_true, if_false, BitVec.getLsbD_and, BitVec.getLsbD_not, hj, decide_true, Bool.true_and,
      getLsbD_bitMask b j hj]
    by_cases h : j = b <;> simp [h]
  · simp only [setBit, if_true, BitVec.getLsbD_or, getLsbD_bitMask b j hj]
    by_cases h : j = b <;> simp [h]

/-! ### Setting pixels -/

/-- What one FBSetBit at a pixel in range leaves: that pixel, every other pixel, every other cell, and the canonical form. -/
theorem setPixel_spec {fb : Memory} {x y : Nat} {on : Bool} (h : InRangePixel x y) :
    ∃ fb', setPixel fb x y on = .next fb' ∧
      (∀ u v, InRangePixel u v → pixelAt fb' u v = if u = x ∧ v = y then on else pixelAt fb u v) ∧
      (∀ a, a ≠ cellIndex (y / 8) x → fb'.read a = fb.read a) ∧ (fb.wf → fb'.wf) := by
  have hp := pad_inRange h
  refine ⟨_, fbSetBit_of_inRange hp.1 hp.2, fun u v huv => ?_, fun a ha => Memory.read_write_other _ _ _ _ ha.symm,
    fun hwf => Memory.wf_write _ _ _ hwf (cellIndex_lt hp.1)⟩
  have hb : v % 8 < 8 := Nat.mod_lt _ (by decide)
  simp only [pixelAt, pad, Memory.read_write, cellIndex_inj h.1 huv.1]
  by_cases hc : y / 8 = v / 8 ∧ x = u
  · rw [if_pos hc, getLsbD_setBit _ _ _ _ hb, hc.1, hc.2]
    by_cases he : v % 8 = y % 8
    · rw [if_pos he, if_pos ⟨rfl, by omega⟩]
    · rw [if_neg he, if_neg fun e => he (by rw [e.2])]
  · rw [if_neg hc, if_neg fun e => hc ⟨by rw [e.2], e.1.symm⟩]

/-- What FBSetBit at every pixel of a set in range leaves (41_drawing_engine.md R130): the pixels of the set, every other pixel,
every cell with no pixel of the set, and the canonical form. -/
theorem setPixels_spec {fb : Memory} {pixels : List (Nat × Nat)} {on : Bool} (h : AllInRangePixel pixels) :
    ∃ fb', setPixels fb pixels on = .next fb' ∧
      (∀ u v, InRangePixel u v → pixelAt fb' u v = if (u, v) ∈ pixels then on else pixelAt fb u v) ∧
      (∀ a, (∀ q ∈ pixels, a ≠ cellIndex (q.2 / 8) q.1) → fb'.read a = fb.read a) ∧ (fb.wf → fb'.wf) := by
  induction pixels generalizing fb with
  | nil => exact ⟨fb, rfl, fun u v _ => by simp, fun _ _ => rfl, id⟩
  | cons q pixels ih =>
    obtain ⟨x, y⟩ := q
    obtain ⟨fb₁, h₁, hp₁, hf₁, hw₁⟩ := setPixel_spec (fb := fb) (on := on) (h (x, y) List.mem_cons_self)
    obtain ⟨fb₂, h₂, hp₂, hf₂, hw₂⟩ := ih (fb := fb₁) fun r hr => h r (List.mem_cons_of_mem _ hr)
    refine ⟨fb₂, by rw [setPixels, h₁, andThen_next, h₂], fun u v huv => ?_, fun a ha => ?_,
      fun hw => hw₂ (hw₁ hw)⟩
    swap
    · rw [hf₂ a fun r hr => ha r (List.mem_cons_of_mem _ hr), hf₁ a (ha (x, y) List.mem_cons_self)]
    rw [hp₂ u v huv, hp₁ u v huv]
    by_cases hm : (u, v) ∈ pixels
    · rw [if_pos hm, if_pos (List.mem_cons_of_mem _ hm)]
    · rw [if_neg hm]
      by_cases he : u = x ∧ v = y
      · rw [if_pos he, if_pos (by rw [he.1, he.2]; exact List.mem_cons_self)]
      · rw [if_neg he, if_neg]
        intro hc
        rcases List.mem_cons.1 hc with hc | hc
        · exact he (Prod.mk.inj hc)
        · exact hm hc

/-! ### Writing cells -/

/-- FBWrite at every cell of a list in range is one bulk write. -/
theorem writeCells_of_inRange {fb : Memory} {writes : List ((Nat × Nat) × Byte)}
    (h : AllInRangeCell (writes.map fun w => w.1)) :
    writeCells fb writes = .next (fb.writeAll (writes.map fun w => (cellIndex w.1.1 w.1.2, w.2))) := by
  induction writes generalizing fb with
  | nil => rw [List.map_nil, Memory.writeAll_nil, writeCells]
  | cons w writes ih =>
    obtain ⟨⟨p, c⟩, v⟩ := w
    rw [writeCells, fbWrite_of_inRange (h (p, c) List.mem_cons_self), andThen_next,
      ih fun r hr => h r (List.mem_cons_of_mem _ hr), List.map_cons, Memory.writeAll_cons]

/-- The clear is an FBWrite of 0 to every cell (20_memory.md R60). -/
theorem writeCells_clear (fb : Memory) : writeCells fb (allCells.map fun q => (q, 0#8)) = .next (clearCells fb) := by
  rw [writeCells_of_inRange, clearCells, List.map_map]
  · rfl
  · intro q hq
    rw [List.map_map] at hq
    obtain ⟨r, hr, rfl⟩ := List.mem_map.1 hq
    exact mem_allCells.1 hr

theorem clearCells_wf {fb : Memory} (h : fb.wf) : (clearCells fb).wf := by
  refine Memory.wf_writeAll _ _ h fun w hw => ?_
  obtain ⟨q, hq, rfl⟩ := List.mem_map.1 hw
  exact cellIndex_lt (mem_allCells.1 hq)

/-- After the clear every cell holds 0. -/
theorem read_clearCells (fb : Memory) {p c : Nat} (h : InRangeCell p c) : (clearCells fb).read (cellIndex p c) = 0#8 := by
  have hm : (p, c) ∈ allCells := mem_allCells.2 h
  refine Memory.read_writeAll_same _ _ _ _ (fun w hw _ => ?_) ⟨(cellIndex p c, 0#8), List.mem_map.2 ⟨(p, c), hm, rfl⟩, rfl⟩
  obtain ⟨q, -, rfl⟩ := List.mem_map.1 hw
  rfl

/-- The clear of a canonical memory lists nothing. -/
theorem clearCells_eq_nil {fb : Memory} (h : fb.wf) : clearCells fb = [] := by
  refine Memory.ext_of_wf _ _ (clearCells_wf h) Memory.wf_nil fun a => ?_
  by_cases ha : a < Config.cellCount
  · obtain ⟨p, c, hpc, rfl⟩ := exists_cell ha
    exact read_clearCells fb hpc
  · rw [Memory.read_beyond _ _ (clearCells_wf h) (not_lt.1 ha)]
    rfl

/-! ### The ghost display -/

theorem displayLost_wf {cells : List (Nat × Nat)} {s : State} (h : s.disp.wf) (hc : AllInRangeCell cells) :
    (displayLost cells s).disp.wf := by
  rw [displayLost_disp]
  refine Memory.wf_writeAll _ _ h fun w hw => ?_
  obtain ⟨q, hq, rfl⟩ := List.mem_map.1 hw
  exact cellIndex_lt (hc q hq)

theorem displayPage_wf {p : Nat} {bytes : List Byte} {s : State} (h : s.disp.wf) (hp : p < Config.pageCount) :
    (displayPage p bytes s).disp.wf := by
  rw [displayPage_disp]
  refine Memory.wf_writeAll _ _ h fun w hw => ?_
  obtain ⟨c, hc, rfl⟩ := List.mem_map.1 hw
  exact cellIndex_lt ⟨hp, List.mem_range.1 hc⟩

/-- A delivered page shows its data bytes, and every other cell of the display what it showed. -/
theorem shown_displayPage {p : Nat} {bytes : List Byte} {s : State} {q c : Nat} (hc : c < Config.width) :
    shown (displayPage p bytes s) q c = if q = p then bytes.getD (4 + c) unlistedCell else shown s q c := by
  unfold shown
  rw [displayPage_disp]
  by_cases h : q = p
  · subst h
    rw [if_pos rfl]
    refine Memory.read_writeAll_same _ _ _ _ (fun w hw he => ?_) ⟨_, List.mem_map.2 ⟨c, List.mem_range.2 hc, rfl⟩, rfl⟩
    obtain ⟨d, hd, rfl⟩ := List.mem_map.1 hw
    rw [((cellIndex_inj (List.mem_range.1 hd) hc).1 he).2]
  · rw [if_neg h]
    refine Memory.read_writeAll_other _ _ _ fun w hw he => ?_
    obtain ⟨d, hd, rfl⟩ := List.mem_map.1 hw
    exact h ((cellIndex_inj (List.mem_range.1 hd) hc).1 he).1.symm

/-- A lost page leaves every other page as it was. -/
theorem shown_displayLost_other {p : Nat} {s : State} {q c : Nat} (hc : c < Config.width) (h : q ≠ p) :
    shown (displayLost (pageCells p) s) q c = shown s q c := by
  unfold shown
  rw [displayLost_disp]
  refine Memory.read_writeAll_other _ _ _ fun w hw he => ?_
  obtain ⟨r, hr, rfl⟩ := List.mem_map.1 hw
  have := mem_pageCells.1 hr
  exact h (((cellIndex_inj this.2 hc).1 he).1.symm.trans this.1)

theorem displayAfterPage_wf {a : BusAnswer} {s : State} (h : s.disp.wf) (hp : s.pg < Config.pageCount) :
    (displayAfterPage a s).disp.wf := by
  unfold displayAfterPage
  split
  · exact displayPage_wf h hp
  · exact displayLost_wf h fun _ hq => ⟨(mem_pageCells.1 hq).1 ▸ hp, (mem_pageCells.1 hq).2⟩
  · exact displayLost_wf (s := { s with boot := _ }) h fun _ hq => mem_allCells.1 hq

theorem displayAfterInit_wf {a : BusAnswer} {s : State} (h : s.disp.wf) : (displayAfterInit a s).disp.wf :=
  displayLost_wf (s := { s with boot := _ }) h fun _ hq => mem_allCells.1 hq

end Sys2Proof.Machine
end

