-- ==== Sys2Proof/Laws/PerInstr.lean ====
section
/-! SUPPORT. What holds of every command as syntax, one lemma per constructor: a well-formed command's packet is as long as its
opcode byte (and for a text its count byte) requires. -/

namespace Sys2Proof.Laws

/-- The length of the command's packet is the one its opcode byte requires (30_encoding.md R82, R85 test 6, R86). -/
def PacketLength.Statement (i : Instr) : Prop :=
  i.wellFormed = true → requiredLength (encode i) = (encode i).length

theorem PacketLength.init : PacketLength.Statement .init := by
  intro _; decide

theorem PacketLength.clear : PacketLength.Statement .clear := by
  intro _; decide

theorem PacketLength.drawPixel (x y : Nat) (on : Bool) : PacketLength.Statement (.drawPixel x y on) := by
  intro _; cases on <;> rfl

theorem PacketLength.drawHline (x y length : Nat) (on : Bool) : PacketLength.Statement (.drawHline x y length on) := by
  intro _; cases on <;> rfl

theorem PacketLength.drawRect (x y width height : Nat) (on filled : Bool) :
    PacketLength.Statement (.drawRect x y width height on filled) := by
  intro _; cases on <;> cases filled <;> rfl

theorem PacketLength.drawText (row column : Nat) (chars : List Byte) (on : Bool) :
    PacketLength.Statement (.drawText row column chars on) := by
  intro h
  have hn : operandFits chars.length = true := by
    simp only [Instr.wellFormed, Bool.and_eq_true] at h
    exact h.2
  have e : requiredLength (encode (.drawText row column chars on)) = 4 + (operandByte chars.length).toNat := by
    cases on <;> rfl
  rw [e, operandByte_toNat hn]
  simp [encode]
  omega

theorem PacketLength.refresh : PacketLength.Statement .refresh := by
  intro _; decide

theorem PacketLength.readCell (page col : Nat) : PacketLength.Statement (.readCell page col) := by
  intro _; rfl

end Sys2Proof.Laws
end

