-- ==== Sys2Proof/Laws/Step.lean ====
section
/-! SUPPORT. What a step is in each phase, said once. -/

namespace Sys2Proof.Machine

/-- Outside IDLE a step is the sequencer's. -/
theorem step_of_busy {s : State} (h : s.st ≠ .idle) : step s = sequencerStep s := by
  unfold step
  split
  · next hs => exact absurd hs h
  · rfl

theorem step_of_no_packet {s : State} (h : s.st = .idle) (hc : s.commands = []) : step s = .next s := by
  simp [step, h, takePacket, hc]

theorem step_of_packet {s : State} {p : Packet} {rest : List Packet} (h : s.st = .idle) (hc : s.commands = p :: rest) :
    step s = match decode p with
      | .ok i => exec i { s with commands := rest }
      | .error _ => .next (raise .illegalCommand { s with commands := rest }) := by
  cases hd : decode p <;> simp [step, h, takePacket, hc, hd]

/-! ### One lemma per row: the step in each state of the sequencer -/

theorem step_iStart {s : State} (h : s.st = .iStart) : step s = .next (initStart s) := by
  rw [step_of_busy (by rw [h]; decide), sequencerStep, h]

theorem step_iAddr {s : State} (h : s.st = .iAddr) : step s = .next (initAddr s) := by
  rw [step_of_busy (by rw [h]; decide), sequencerStep, h]

theorem step_iMark {s : State} (h : s.st = .iMark) : step s = .next (initMark s) := by
  rw [step_of_busy (by rw [h]; decide), sequencerStep, h]

theorem step_iCmds {s : State} (h : s.st = .iCmds) : step s = initCmds s := by
  rw [step_of_busy (by rw [h]; decide), sequencerStep, h]

theorem step_iStop {s : State} (h : s.st = .iStop) : step s = .next (initStop s) := by
  rw [step_of_busy (by rw [h]; decide), sequencerStep, h]

theorem step_iExec {s : State} (h : s.st = .iExec) : step s = .next (initExec s) := by
  rw [step_of_busy (by rw [h]; decide), sequencerStep, h]

theorem step_rStart {s : State} (h : s.st = .rStart) : step s = .next (refreshStart s) := by
  rw [step_of_busy (by rw [h]; decide), sequencerStep, h]

theorem step_rAddr {s : State} (h : s.st = .rAddr) : step s = .next (refreshAddr s) := by
  rw [step_of_busy (by rw [h]; decide), sequencerStep, h]

theorem step_rMarkCmd {s : State} (h : s.st = .rMarkCmd) : step s = .next (refreshMarkCmd s) := by
  rw [step_of_busy (by rw [h]; decide), sequencerStep, h]

theorem step_rPageCmd {s : State} (h : s.st = .rPageCmd) : step s = refreshPageCmd s := by
  rw [step_of_busy (by rw [h]; decide), sequencerStep, h]

theorem step_rMarkData {s : State} (h : s.st = .rMarkData) : step s = .next (refreshMarkData s) := by
  rw [step_of_busy (by rw [h]; decide), sequencerStep, h]

theorem step_rData {s : State} (h : s.st = .rData) : step s = refreshData s := by
  rw [step_of_busy (by rw [h]; decide), sequencerStep, h]

theorem step_rStop {s : State} (h : s.st = .rStop) : step s = .next (refreshStop s) := by
  rw [step_of_busy (by rw [h]; decide), sequencerStep, h]

theorem step_rExec {s : State} (h : s.st = .rExec) : step s = refreshExec s := by
  rw [step_of_busy (by rw [h]; decide), sequencerStep, h]

/-- Everything a step can be: it waits, it rejects a packet, it runs a command, or the sequencer moves. -/
theorem step_cases (s : State) :
    (s.st = .idle ∧ s.commands = [] ∧ step s = .next s) ∨
    (∃ p rest e, s.st = .idle ∧ s.commands = p :: rest ∧ decode p = .error e ∧
      step s = .next (raise .illegalCommand { s with commands := rest })) ∨
    (∃ p rest i, s.st = .idle ∧ s.commands = p :: rest ∧ decode p = .ok i ∧ step s = exec i { s with commands := rest }) ∨
    (s.st ≠ .idle ∧ step s = sequencerStep s) := by
  by_cases h : s.st = .idle
  · cases hc : s.commands with
    | nil => exact .inl ⟨h, rfl, step_of_no_packet h hc⟩
    | cons p rest =>
      have hs := step_of_packet h hc
      cases hd : decode p with
      | error e =>
        rw [hd] at hs
        exact .inr (.inl ⟨p, rest, e, h, rfl, hd, hs⟩)
      | ok i =>
        rw [hd] at hs
        exact .inr (.inr (.inl ⟨p, rest, i, h, rfl, hd, hs⟩))
  · exact .inr (.inr (.inr ⟨h, step_of_busy h⟩))

/-! ### Outcomes seen through a view -/

@[simp] theorem viewOutcome_next (view : State → State) (s : State) : viewOutcome view (.next s) = .next (view s) := rfl

@[simp] theorem viewOutcome_fault (view : State → State) (r : Fault) : viewOutcome view (.fault r) = .fault r := rfl

@[simp] theorem viewOutcome_refused (view : State → State) (r : Refusal) : viewOutcome view (.refused r) = .refused r := rfl

end Sys2Proof.Machine
end

