-- ==== Sys2Proof/Tests/Slice0.lean ====
section
/-! SUPPORT. The model's own tests. Expected results come from spec/95_test_vectors.md (the vector's name stands before each) or from
the rule cited; then one witness per obligation that has hypotheses. -/

namespace Sys2Proof.Machine.Tests

/-- An IDLE state with this FB, the packets and answers still to come, and a display that lists nothing. -/
def quiet (fb : Memory) (commands : List Packet) (answers : List BusAnswer) : State where
  fb := fb
  st := .idle
  pg := 0
  col := 0
  k := 0
  txn := []
  commands := commands
  answers := answers
  answerIndex := 0
  log := []
  events := []
  responses := []
  boot := .fresh
  disp := []
  freeIndex := 0

/-- Whether an outcome is a next state with this FB that has given these responses and is in IDLE. -/
def ends (o : Host.Outcome State Fault Refusal) (fb : Memory) (responses : List Packet) : Bool :=
  match o with
  | .next t => t.st == .idle && t.fb == fb && t.responses.map Response.packet == responses
  | .fault _ => false
  | .refused _ => false

/-- Whether an outcome is a next state that passes the check. -/
def nextIs (o : Host.Outcome State Fault Refusal) (check : State → Bool) : Bool :=
  match o with
  | .next t => check t
  | .fault _ => false
  | .refused _ => false

/-- A transport error of one byte. -/
def failure : TransportErrorInfo := ⟨[0x5A]⟩

/-! ### WellFormed: one ill-formed term per check (30_encoding.md R83, R86) -/

theorem test_wellFormed_refuses_pixel_x : (Instr.drawPixel 256 0 true).wellFormed = false := by decide
theorem test_wellFormed_refuses_pixel_y : (Instr.drawPixel 0 256 true).wellFormed = false := by decide
theorem test_wellFormed_refuses_hline_x : (Instr.drawHline 256 0 0 true).wellFormed = false := by decide
theorem test_wellFormed_refuses_hline_y : (Instr.drawHline 0 256 0 true).wellFormed = false := by decide
theorem test_wellFormed_refuses_hline_length : (Instr.drawHline 0 0 256 true).wellFormed = false := by decide
theorem test_wellFormed_refuses_rect_x : (Instr.drawRect 256 0 0 0 true true).wellFormed = false := by decide
theorem test_wellFormed_refuses_rect_y : (Instr.drawRect 0 256 0 0 true true).wellFormed = false := by decide
theorem test_wellFormed_refuses_rect_width : (Instr.drawRect 0 0 256 0 true true).wellFormed = false := by decide
theorem test_wellFormed_refuses_rect_height : (Instr.drawRect 0 0 0 256 true true).wellFormed = false := by decide
theorem test_wellFormed_refuses_text_row : (Instr.drawText 256 0 [] true).wellFormed = false := by decide
theorem test_wellFormed_refuses_text_column : (Instr.drawText 0 256 [] true).wellFormed = false := by decide
theorem test_wellFormed_refuses_text_length : (Instr.drawText 0 0 (List.replicate 256 0x41) true).wellFormed = false := by
  decide +kernel
theorem test_wellFormed_refuses_cell_page : (Instr.readCell 256 0).wellFormed = false := by decide
theorem test_wellFormed_refuses_cell_col : (Instr.readCell 0 256).wellFormed = false := by decide
theorem test_wellFormed_accepts : (Instr.drawRect 255 255 255 255 false false).wellFormed = true := by decide

/-! ### Decoding, the words written out from 30_encoding.md R81 to R84 (DE1 to DE12) -/

theorem test_decode_init : decode [0b00010000] = .ok .init := by decide
theorem test_decode_clear : decode [0b00100000] = .ok .clear := by decide
theorem test_decode_drawPixel_set : decode [0b00110001, 0x05, 0x0A] = .ok (.drawPixel 5 10 true) := by decide
theorem test_decode_drawPixel_clear : decode [0b00110000, 0x05, 0x0A] = .ok (.drawPixel 5 10 false) := by decide
theorem test_decode_drawHline : decode [0b01000001, 0x00, 0x0A, 0x80] = .ok (.drawHline 0 10 128 true) := by decide
theorem test_decode_drawRect_outline :
    decode [0b01010001, 0x02, 0x03, 0x05, 0x04] = .ok (.drawRect 2 3 5 4 true false) := by decide
theorem test_decode_drawRect_filled :
    decode [0b01010010, 0x03, 0x04, 0x03, 0x02] = .ok (.drawRect 3 4 3 2 false true) := by decide
theorem test_decode_drawText :
    decode [0b01100001, 0x00, 0x0E, 0x02, 0x48, 0x69] = .ok (.drawText 0 14 [0x48, 0x69] true) := by decide
theorem test_decode_drawText_empty : decode [0b01100000, 0x07, 0x00, 0x00] = .ok (.drawText 7 0 [] false) := by decide
theorem test_decode_refresh : decode [0b01110000] = .ok .refresh := by decide
theorem test_decode_readCell : decode [0b10000000, 0x01, 0x05] = .ok (.readCell 1 5) := by decide

/-! ### Illegal packets (DE13 to DE21, ER4), by the first test of R85 that rejects -/

theorem test_decode_rejects_empty : decode [] = .error .noOpcodeByte := by decide
theorem test_decode_rejects_zero : decode [0x00] = .error .reservedOpcode := by decide
theorem test_decode_rejects_nine : decode [0x90, 0x00, 0x00] = .error .reservedOpcode := by decide
theorem test_decode_rejects_fifteen : decode [0xF0] = .error .reservedOpcode := by decide
theorem test_decode_rejects_rsv_bit_2 : decode [0x34, 0x05, 0x0A] = .error .reservedBits := by decide
theorem test_decode_rejects_rsv_bit_3 : decode [0x38, 0x05, 0x0A] = .error .reservedBits := by decide
theorem test_decode_rejects_filled_pixel : decode [0x32, 0x80, 0x00] = .error .filledFlag := by decide
theorem test_decode_rejects_on_init : decode [0x11] = .error .onFlag := by decide
theorem test_decode_rejects_on_readCell : decode [0x81, 0x00, 0x00] = .error .onFlag := by decide
theorem test_decode_rejects_short : decode [0x31, 0x05] = .error .wrongLength := by decide
theorem test_decode_rejects_long : decode [0x31, 0x05, 0x0A, 0x00] = .error .wrongLength := by decide
theorem test_decode_rejects_text_count : decode [0x61, 0x00, 0x00, 0x02, 0x41] = .error .wrongLength := by decide
theorem test_decode_rejects_text_short : decode [0x61, 0x00, 0x00] = .error .wrongLength := by decide
theorem test_decode_rejects_filled_init : decode [0x12] = .error .filledFlag := by decide

/-! ### Table words and the fetch -/

theorem test_decodeTableWord_pixel : decodeTableWord 24 0x0A0531 = some (.drawPixel 5 10 true) := by decide +kernel
theorem test_decodeTableWord_operands_zero : decodeTableWord 8 0x80 = some (.readCell 0 0) := by decide +kernel
theorem test_withFetchWord_runs :
    nextIs (step ((quiet [(133, 0x04)] [[0x20]] []).withFetchWord 24 0x050180))
      (fun t => t.responses == [.ok (some 0x04)] && t.commands == [[0x20]]) = true := by decide +kernel

/-! ### PAD (PA2, PA4, PA7) -/

theorem test_pad : (pad 0 7, pad 5 10, pad 127 63) = (⟨0, 0, 7⟩, ⟨1, 5, 2⟩, ⟨7, 127, 7⟩) := by decide

/-! ### One step of each command -/

/-- FP1. -/
theorem test_clear : ends (exec .clear (quiet [(0, 0x81), (1023, 0x80)] [] [])) [] [[0x00]] = true := by decide +kernel

/-- FP2, its last packet. -/
theorem test_drawPixel_last :
    ends (exec (.drawPixel 127 63 true) (quiet [(0, 0x81), (128, 0x01)] [] []))
      [(0, 0x81), (128, 0x01), (1023, 0x80)] [[0x00]] = true := by decide +kernel

/-- FP4. -/
theorem test_drawPixel_clears_one_bit :
    ends (exec (.drawPixel 5 10 false) (quiet [(133, 0xFF)] [] [])) [(133, 0xFB)] [[0x00]] = true := by decide +kernel

/-- FP9. -/
theorem test_readCell : ends (exec (.readCell 1 5) (quiet [(133, 0x04)] [] [])) [(133, 0x04)] [[0x00, 0x04]] = true := by
  decide +kernel

/-- FP10. -/
theorem test_readCell_out_of_range : ends (exec (.readCell 0 128) (quiet [(133, 0x04)] [] [])) [(133, 0x04)] [[0x01]] = true := by
  decide +kernel

/-- HL2. -/
theorem test_drawHline :
    ends (exec (.drawHline 120 63 8 true) (quiet [] [] []))
      [(1016, 0x80), (1017, 0x80), (1018, 0x80), (1019, 0x80), (1020, 0x80), (1021, 0x80), (1022, 0x80), (1023, 0x80)]
      [[0x00]] = true := by decide +kernel

/-- HL4: no wrap to 44. -/
theorem test_drawHline_no_wrap : ends (exec (.drawHline 200 0 100 true) (quiet [] [] [])) [] [[0x01]] = true := by
  decide +kernel

/-- RC1. -/
theorem test_drawRect_outline :
    ends (exec (.drawRect 2 3 5 4 true false) (quiet [] [] []))
      [(2, 0x78), (3, 0x48), (4, 0x48), (5, 0x48), (6, 0x78)] [[0x00]] = true := by decide +kernel

/-- RC3: across a page boundary. -/
theorem test_drawRect_filled :
    ends (exec (.drawRect 10 6 3 4 true true) (quiet [] [] []))
      [(10, 0xC0), (11, 0xC0), (12, 0xC0), (138, 0x03), (139, 0x03), (140, 0x03)] [[0x00]] = true := by decide +kernel

/-- TX10: an empty text succeeds wherever it stands. -/
theorem test_drawText_empty : ends (exec (.drawText 0 16 [] true) (quiet [(7, 0x11)] [] [])) [(7, 0x11)] [[0x00]] = true := by
  decide +kernel

/-- TX8, for whatever glyph width: page 8 does not exist. -/
theorem test_drawText_row_eight :
    exec (.drawText 8 0 [0x41] true) (quiet [] [] []) = .next (raise .coordinateOutOfRange (quiet [] [] [])) := by
  refine if_neg fun h => ?_
  rcases allInRangeCell_text.1 h with h | h
  · exact absurd h (by decide)
  · exact absurd h.1 (by decide)

/-- ER1: a reserved opcode. -/
theorem test_illegal : ends (step (quiet [(7, 0x11)] [[0xF0]] [])) [(7, 0x11)] [[0x03]] = true := by decide +kernel

/-- 42_init_protocol.md R152, first row. -/
theorem test_init_accepted :
    nextIs (step (quiet [(0, 0x81)] [[0x10]] [])) (fun t => t.st == .iStart && t.fb == [] && t.responses == []) = true := by
  decide +kernel

/-- IN2: the answer is an error. -/
theorem test_init_fails :
    nextIs (step { quiet [] [] [.err failure] with st := .iExec, txn := [0x01] })
      (fun t => t.st == .idle && t.responses.map Response.packet == [[0x02, 0x5A]] && t.log == [⟨[0x01], .err failure⟩]) =
      true := by decide +kernel

/-- 43_refresh_fsm.md R167, T6: the data byte is the cell at page PG, column COL. -/
theorem test_refresh_data :
    nextIs (step { quiet [(133, 0x04)] [] [] with st := .rData, pg := 1, col := 5, txn := [0x01] })
      (fun t => t.st == .rData && t.col == 6 && t.txn == [0x01, 0x04]) = true := by decide +kernel

/-- 43_refresh_fsm.md R167, T10: after the last page the command responds Ok. -/
theorem test_refresh_last_page :
    nextIs (step { quiet [] [] [.ok] with st := .rExec, pg := 7, txn := [0x01], boot := .kept })
      (fun t => t.st == .idle && t.responses == [.ok none] && t.log == [⟨[0x01], .ok⟩]) = true := by decide +kernel

/-! ### Witnesses: every obligation with hypotheses has states and operands that meet them -/

/-- The answers Ok to every page. -/
def allOk : List BusAnswer := List.replicate 8 .ok

/-- Three pages answered Ok and the fourth not. -/
def failsAtThree : List BusAnswer := [.ok, .ok, .ok, .err failure]

theorem witness_DecodeOfEncode : (Instr.drawText 7 255 [0x00, 0xFF] false).wellFormed = true := by decide

theorem witness_EncodeOfDecode : decode [0x53, 0xFF, 0xFF, 0xFF, 0xFF] = .ok (.drawRect 255 255 255 255 true true) := by decide

theorem witness_IllegalPacketsInTestOrder :
    (quiet [] [[0x12]] []).st = .idle ∧ (quiet [] [[0x12]] []).commands = [[0x12]] ∧ failsTest [0x12] .filledFlag := by
  refine ⟨rfl, rfl, ?_⟩; simp only [failsTest]; decide

theorem witness_StepRunsTheDecodedCommand :
    (quiet [] [[0x20]] []).st = .idle ∧ (quiet [] [[0x20]] []).commands = [[0x20]] ∧ decode [0x20] = .ok .clear := by decide

theorem witness_IdleWaitsForTheHost : (quiet [] [] []).st = .idle ∧ (quiet [] [] []).commands = [] := by decide

theorem witness_BusyBlockHoldsThePort :
    { quiet [] [[0x20]] [] with st := .rStart }.st ≠ SeqState.idle ∧
    ∃ t, step { quiet [] [[0x20]] [] with st := .rStart } = .next t := ⟨by decide, _, rfl⟩

theorem witness_OneResponsePerCommand :
    ∃ t, step (quiet [] [[0x20]] []) = .next t ∧ t.st = .idle ∧ (quiet [] [[0x20]] []).commands ≠ [] :=
  ⟨_, rfl, rfl, by decide⟩

theorem witness_DeadRegistersDoNotMatter :
    liveView (quiet [] [] []) = liveView { quiet [] [] [] with pg := 5, col := 9, k := 2, txn := [0x01] } ∧
    quiet [] [] [] ≠ { quiet [] [] [] with pg := 5, col := 9, k := 2, txn := [0x01] } := by decide

theorem witness_ObservationsDoNotMatter :
    blockView (quiet [] [] []) = blockView { quiet [] [] [] with responses := [.error .illegalCommand], boot := .broken } ∧
    quiet [] [] [] ≠ { quiet [] [] [] with responses := [.error .illegalCommand], boot := .broken } := by decide

theorem witness_ResetLeavesIdleAndUnknownCells : InRangeCell 0 0 ∧ InRangeCell 7 127 := by decide

theorem witness_MarkersTellTransactionsApart : 0 < Config.pageCount ∧ 7 < Config.pageCount := by decide

/-- The smallest geometry the constraints of 00_scope.md R8 allow, and the largest number of pages. -/
theorem witness_GeometryOfTheBlock :
    ({ width := 1, pageCount := 1 } : Geometry).height = 8 ∧ ({ width := 200 } : Geometry).height = 64 := by decide

theorem witness_PadSelectsOneBit : InRangePixel 0 0 ∧ InRangePixel 127 63 ∧ ¬ InRangePixel 128 0 ∧ ¬ InRangePixel 0 64 := by decide

theorem witness_PadAndItsInverse : InRangePixel 127 63 ∧ InRangeCell 7 127 ∧ 7 < 8 := by decide

theorem witness_ClearZeroesEveryCell : InRangeCell 7 127 ∧ (quiet [(133, 0x04)] [] []).fb.wf := by decide

theorem witness_DrawPixelSetsOneBit :
    InRangePixel 127 63 ∧ (0 < 8 ∧ 0 ≠ 63 % 8) ∧ 0 ≠ cellIndex (63 / 8) 127 ∧ ¬ InRangePixel 128 63 := by decide

theorem witness_ReadCellRespondsTheCell : InRangeCell 7 127 ∧ ¬ InRangeCell 8 127 := by decide

theorem witness_DrawHlineSetsItsPixels :
    (∀ i, i < 8 → InRangePixel (120 + i) 63) ∧ (0 < 8 ∧ InRangePixel 0 0) ∧
    (∀ u, 120 ≤ u → u < 120 + 8 → 0 ≠ cellIndex (63 / 8) u) ∧ ¬ InRangePixel (121 + 7) 63 := by
  refine ⟨fun i hi => ⟨?_, by decide⟩, by decide, fun u _ _ => ?_, by decide⟩
  · rw [width_eq]; omega
  · rw [cellIndex, width_eq]; omega

theorem witness_FullWidthLineFillsOnePage : ∀ p c, InRangeCell p c → cell (quiet [] [] []) p c = 0 := fun _ _ _ => rfl

theorem witness_DrawRectSetsItsPixels :
    (∀ i j, i < 4 → j < 4 → (false = true ∨ i = 0 ∨ i + 1 = 4 ∨ j = 0 ∨ j + 1 = 4) → InRangePixel (124 + i) (60 + j)) ∧
    (InRangePixel 0 0 ∧ ∀ i j, i < 4 → j < 4 → (false = true ∨ i = 0 ∨ i + 1 = 4 ∨ j = 0 ∨ j + 1 = 4) →
      (0, 0) ≠ (124 + i, 60 + j)) ∧
    (∀ i j, i < 4 → j < 4 → (false = true ∨ i = 0 ∨ i + 1 = 4 ∨ j = 0 ∨ j + 1 = 4) → 0 ≠ cellIndex ((60 + j) / 8) (124 + i)) ∧
    (4 < 5 ∧ 0 < 4 ∧ 4 + 1 = 5 ∧ ¬ InRangePixel (124 + 4) (60 + 0)) := by
  refine ⟨fun i j hi hj _ => ⟨?_, ?_⟩, ⟨by decide, fun i j _ _ _ h => ?_⟩, fun i j _ _ _ => ?_, by decide⟩
  · rw [width_eq]; omega
  · rw [height_eq]; omega
  · have := (Prod.mk.inj h).1; omega
  · rw [cellIndex, width_eq]; omega

theorem witness_RectanglePixelCounts :
    (∀ u v, InRangePixel u v → pixel (quiet [] [] []) u v = false) ∧
    2 + 5 ≤ Config.width ∧ 3 + 4 ≤ Config.height ∧ 1 < 5 ∧ 1 < 4 := by
  refine ⟨fun u v _ => ?_, by decide⟩
  simp [pixel, pixelAt, quiet, unlistedCell]

theorem witness_ThinRectangles : 2 ≤ 2 ∨ 5 ≤ 2 := by decide

/-- A text of one character is in range on every glyph source whose entries fit a page. -/
theorem witness_DrawTextOverwritesItsCells :
    (Config.glyphWidth ≤ 128 → ∀ k i, k < [0x41#8].length → i < Config.glyphWidth →
      InRangeCell 7 (0 * Config.glyphWidth + k * Config.glyphWidth + i)) ∧
    (∀ k i, k < ([] : List Byte).length → i < Config.glyphWidth →
      InRangeCell 8 (16 * Config.glyphWidth + k * Config.glyphWidth + i)) ∧
    (0 < [0x41#8].length ∧ 0 < Config.glyphWidth ∧ ¬ InRangeCell 8 (0 * Config.glyphWidth + 0 * Config.glyphWidth + 0)) := by
  refine ⟨fun h k i hk hi => ⟨by decide, ?_⟩, fun k i hk => absurd hk (Nat.not_lt_zero k), by decide, glyphWidth_pos, fun h => ?_⟩
  · have hk : k = 0 := by simpa using hk
    rw [hk, width_eq]; omega
  · exact absurd h.1 (by decide)

theorem witness_GlyphEntries : (0 : Byte) = 0 ∧ 128 ≤ (0x80 : Byte).toNat := by decide

/-- The text of one character again, and the empty text for every glyph source. -/
theorem witness_InverseTextComplements :
    7 < Config.pageCount ∧ (0 + ([] : List Byte).length) * Config.glyphWidth ≤ Config.width ∧
    (Config.glyphWidth ≤ 128 → (0 + [0x41#8].length) * Config.glyphWidth ≤ Config.width ∧
      0 * Config.glyphWidth ≤ 0 ∧ 0 < (0 + [0x41#8].length) * Config.glyphWidth) := by
  have := glyphWidth_pos
  refine ⟨by decide, by simp, fun h => ⟨?_, by simp, by simpa using this⟩⟩
  rw [width_eq]; simpa using h

theorem witness_DrawingIsIdempotent : Instr.clear ≠ .init ∧ ∃ t, exec .clear (quiet [] [] []) = .next t := ⟨by decide, _, rfl⟩

theorem witness_AllOrNothing :
    (7 < 8 ∧ ¬ InRangePixel (121 + 7) 63) ∧
    (4 < 5 ∧ 3 < 4 ∧ (false = true ∨ 4 = 0 ∨ 4 + 1 = 5 ∨ 3 = 0 ∨ 3 + 1 = 4) ∧ ¬ InRangePixel (124 + 4) (60 + 3)) ∧
    (0 < [0x41#8].length ∧ 0 < Config.glyphWidth ∧ ¬ InRangeCell 8 (0 * Config.glyphWidth + 0 * Config.glyphWidth + 0)) := by
  refine ⟨by decide, by decide, by decide, glyphWidth_pos, fun h => ?_⟩
  exact absurd h.1 (by decide)

theorem witness_InitClearsThenStarts : InRangeCell 7 127 ∧ (quiet [(133, 0x04)] [] []).fb.wf := by decide

/-- Every byte of `INIT_CMDS` is unknown, but there is a first one (42_init_protocol.md R153). -/
theorem witness_InitTransitionTable :
    ((quiet [] [[0x10]] []).st = .idle ∧ (quiet [] [[0x10]] []).commands = [[0x10]]) ∧
    (∃ b, { quiet [] [] [] with st := .iCmds }.st = SeqState.iCmds ∧
      Config.initCmds[{ quiet [] [] [] with st := .iCmds }.k]? = some b) ∧
    { quiet [] [] [] with st := .iCmds, k := Config.initLength }.k = Config.initLength ∧
    { quiet [] [] [.err failure] with st := .iExec }.st = SeqState.iExec := by
  refine ⟨by decide, ?_, rfl, rfl⟩
  have h : 0 < Config.initCmds.length := by
    simp [Config.initCmds, Config.initOrder, Config.initCommand]
  exact ⟨Config.initCmds[0], rfl, List.getElem?_eq_getElem h⟩

theorem witness_InitSendsOneTransaction :
    (quiet [(0, 0x01)] [[0x10]] [.err failure]).st = .idle ∧
    (quiet [(0, 0x01)] [[0x10]] [.err failure]).commands = [[0x10]] := by decide

theorem witness_PageWriteTransitionTable :
    ((quiet [] [[0x70]] []).st = .idle ∧ (quiet [] [[0x70]] []).commands = [[0x70]]) ∧
    { quiet [] [] [] with st := .rPageCmd, pg := 7 }.pg < Config.pageCount ∧
    { quiet [] [] [] with st := .rData, pg := 7, col := 127 }.col < Config.width ∧
    { quiet [] [] [] with st := .rData, pg := 7, col := 128 }.col = Config.width ∧
    (nextAnswer { quiet [] [] [.ok] with st := .rExec, pg := 6 } = .ok ∧ 6 < Config.pageCount - 1) ∧
    (nextAnswer { quiet [] [] [.ok] with st := .rExec, pg := 7 } = .ok ∧ 7 = Config.pageCount - 1) ∧
    nextAnswer { quiet [] [] [.err failure] with st := .rExec, pg := 7 } = .err failure := by decide

theorem witness_PageTransactionShape :
    127 < Config.width ∧ 7 < Config.pageCount ∧ pageTxn [] 7 = pageTxn [] 7 := ⟨by decide, by decide, rfl⟩

theorem witness_RefreshSendsEveryPage :
    (quiet [(133, 0x04)] [[0x70]] allOk).st = .idle ∧ (quiet [(133, 0x04)] [[0x70]] allOk).commands = [[0x70]] ∧
    ∀ p, p < Config.pageCount → upcoming (quiet [(133, 0x04)] [[0x70]] allOk) p = .ok := by decide

theorem witness_RefreshStopsAtTheFirstFailure :
    (quiet [] [[0x70]] failsAtThree).st = .idle ∧ (quiet [] [[0x70]] failsAtThree).commands = [[0x70]] ∧
    3 < Config.pageCount ∧ (∀ p, p < 3 → upcoming (quiet [] [[0x70]] failsAtThree) p = .ok) ∧
    upcoming (quiet [] [[0x70]] failsAtThree) 3 = .err failure := by decide

theorem witness_FailureOnPageThree :
    (quiet [] [[0x70]] failsAtThree).st = .idle ∧ (quiet [] [[0x70]] failsAtThree).commands = [[0x70]] ∧
    upcoming (quiet [] [[0x70]] failsAtThree) 0 = .ok ∧ upcoming (quiet [] [[0x70]] failsAtThree) 1 = .ok ∧
    upcoming (quiet [] [[0x70]] failsAtThree) 2 = .ok ∧ upcoming (quiet [] [[0x70]] failsAtThree) 3 = .err failure := by decide

theorem witness_RefreshReadsBackRowMajor :
    (quiet [(133, 0x04)] [[0x70]] allOk).st = .idle ∧ (quiet [(133, 0x04)] [[0x70]] allOk).commands = [[0x70]] ∧
    (∀ p, p < Config.pageCount → upcoming (quiet [(133, 0x04)] [[0x70]] allOk) p = .ok) ∧
    InRangeCell 7 127 ∧ (7, 127) ∈ allCells :=
  ⟨rfl, rfl, by decide, by decide, mem_allCells.2 (by decide)⟩

theorem witness_OnlyDrawingChangesFb :
    ∃ t, step (quiet [] [[0x70]] []) = .next t ∧
      ∀ p rest, (quiet [] [[0x70]] []).commands = p :: rest → decode p = .ok .refresh := by
  refine ⟨_, rfl, fun p rest h => ?_⟩
  obtain ⟨rfl, -⟩ := List.cons.inj h
  decide

theorem witness_LogGrowsOnlyAtAnAnswer :
    (∃ t, step { quiet [] [] [.ok] with st := .iExec } = .next t) ∧ ∃ t, step (quiet [] [[0x20]] []) = .next t :=
  ⟨⟨_, rfl⟩, _, rfl⟩

theorem witness_NonBusCommandsAreOneStep :
    (quiet [] [] []).st = .idle ∧ Instr.drawPixel 5 10 true ≠ .init ∧ Instr.drawPixel 5 10 true ≠ .refresh ∧
    133 ∈ writtenCells (.drawPixel 5 10 true) ∧ 0 ∉ writtenCells (.drawPixel 5 10 true) ∧
    writtenCells (.drawHline 128 0 0 true) = [] ∧
    exec (.drawPixel 128 0 true) (quiet [] [] []) =
      .next { quiet [] [] [] with responses := [.error .coordinateOutOfRange] } :=
  ⟨rfl, by decide, by decide, by decide, by decide, rfl, rfl⟩

/-- A state in the middle of a REFRESH, in the boot order. -/
def midRefresh : State :=
  { quiet [] [] [] with
    st := .rStart
    log := [⟨initTxn, .ok⟩]
    events := [.txExec initTxn Config.peripheralAddress Config.timeout .ok]
    boot := .kept }

theorem witness_MachineInv : MachineInv midRefresh where
  fb_wf := Memory.wf_nil
  disp_wf := Memory.wf_nil
  sequencer := trivial
  init_clear := fun h => absurd h (by decide)
  page_range := fun _ => (by decide : 0 < 8)
  pages_sent := fun _ => ⟨[⟨initTxn, .ok⟩], rfl⟩
  log_events := rfl
  boot_fresh := fun h => absurd h (by decide)
  boot_kept := fun _ => ⟨[], [], rfl, fun _ h => absurd h List.not_mem_nil⟩
  pages_shown := fun _ _ _ _ h => absurd h (Nat.not_lt_zero _)

theorem witness_StepKeepsTheInvariant : MachineInv midRefresh ∧ ∃ t, step midRefresh = .next t := ⟨witness_MachineInv, _, rfl⟩

theorem witness_InvariantExcludesEveryStop : MachineInv midRefresh := witness_MachineInv

theorem witness_EveryCommandReturnsToIdle : MachineInv midRefresh ∧ midRefresh.st ≠ .idle := ⟨witness_MachineInv, by decide⟩

theorem witness_DisplayChangesOnlyAtAnAnswer :
    (∃ t, step (quiet [] [[0x20]] []) = .next t) ∧
    (∃ t, step { quiet [] [] [.ok] with st := .iExec } = .next t) ∧
    nextAnswer { quiet [] [] [.ok] with st := .iExec } = .ok ∧
    nextAnswer { quiet [] [] [.err failure] with st := .iExec } ≠ .ok ∧
    ∃ t, step { quiet [] [] [.err failure] with st := .rExec, boot := .kept } = .next t :=
  ⟨⟨_, rfl⟩, ⟨_, rfl⟩, by decide, by decide, _, rfl⟩

theorem witness_RefreshReachesTheDisplay :
    let s := { quiet [(133, 0x04)] [[0x70]] allOk with boot := .kept }
    let u := { quiet [] [[0x70]] failsAtThree with boot := .kept }
    (s.st = .idle ∧ s.boot = .kept ∧ s.commands = [[0x70]] ∧ ∀ p, p < Config.pageCount → upcoming s p = .ok) ∧
    (u.st = .idle ∧ u.boot = .kept ∧ u.commands = [[0x70]] ∧ 3 < Config.pageCount ∧
      (∀ p, p < 3 → upcoming u p = .ok) ∧ upcoming u 3 = .err failure) ∧
    InRangeCell 0 0 ∧ (3 < 7 ∧ InRangeCell 7 127) := by decide

end Sys2Proof.Machine.Tests
end

section
/-! Proofs of the statements of 00_scope.md: the geometry (R8) and the glyph source (R9). -/

namespace Sys2Proof.Machine

/-! ### The geometry -/

theorem geometry_height_eq (g : Geometry) : g.height = g.pageCount * 8 := rfl

/-- Settles O50: the constraints are what a `Geometry` carries, the values are those of the configured one. -/
theorem geometryOfTheBlock : Obligations.GeometryOfTheBlock := by
  unfold Obligations.GeometryOfTheBlock
  refine ⟨fun g => ?_, ?_⟩
  · exact ⟨g.width_pos, g.pageCount_pos, g.pageCount_le, geometry_height_eq g⟩
  · exact ⟨rfl, width_eq, pageCount_eq, height_eq⟩

/-! ### The glyph source -/

@[simp] theorem length_glyph (code : Int) : (Config.glyph code).length = Config.glyphWidth := by
  simp [Config.glyph]

theorem glyphByte_of_nonpos {code : Int} (h : code ≤ 0) : Config.glyphByte code = Config.blankColumn :=
  funext fun _ => if_pos h

theorem glyph_of_nonpos {code : Int} (h : code ≤ 0) : Config.glyph code = Config.blank := by
  rw [Config.glyph, glyphByte_of_nonpos h, Config.blank]

/-- A character byte is read as a signed code (41_drawing_engine.md R140), so 0x80 to 0xFF are the negative codes. -/
theorem charCode_nonpos_iff (ch : Byte) : charCode ch ≤ 0 ↔ ch = 0 ∨ 128 ≤ ch.toNat := by
  have toNat_lt : ch.toNat < 256 := ch.isLt
  have eq_zero : ch = 0 ↔ ch.toNat = 0 := BitVec.toNat_inj.symm
  rw [charCode, BitVec.toInt_eq_toNat_cond, eq_zero]
  split <;> omega

/-- Settles O24: the characters named are those whose signed code is not positive, and such a code selects BLANK. -/
theorem glyphEntries : Obligations.GlyphEntries := by
  unfold Obligations.GlyphEntries
  refine ⟨glyphWidth_pos, length_glyph, fun ch h => ?_⟩
  have nonpos : ch.toInt ≤ 0 := (charCode_nonpos_iff ch).2 h
  exact glyph_of_nonpos nonpos

end Sys2Proof.Machine
end

section
/-! What a command does: the six without bus I/O are one step from IDLE to IDLE that reads FB only (10_state.md R22, R23;
20_memory.md R62). -/

namespace Sys2Proof.Machine

/-- A command, as a function of the state, that makes `fb'` of the framebuffer `fb` in one step, answers `r`, touches
nothing else, and of the framebuffer only `cells`. -/
structure OneStepEffect (command : State → Host.Outcome State Fault Refusal) (cells : List Nat) (fb fb' : Memory)
    (r : Response) : Prop where
  outcome : ∀ s, s.fb = fb → command s = .next { s with fb := fb', st := .idle, responses := s.responses ++ [r] }
  frame : ∀ a, a ∉ cells → fb'.read a = fb.read a
  of_no_cell : cells = [] → fb' = fb
  of_error : ∀ kind, r = .error kind → fb' = fb

/-- A command that only responds leaves FB as it was. -/
theorem OneStepEffect.of_unchanged {command : State → Host.Outcome State Fault Refusal} {fb : Memory} {r : Response}
    (cells : List Nat) (h : ∀ s, s.fb = fb → command s = .next { s with st := .idle, responses := s.responses ++ [r] }) :
    OneStepEffect command cells fb fb r where
  outcome := by rintro s rfl; exact h s rfl
  frame _ _ := rfl
  of_no_cell _ := rfl
  of_error _ _ := rfl

/-- All in range and the pixels' cells are written, or an error and none is (20_memory.md R58). -/
theorem drawPixels_effect (pixels : List (Nat × Nat)) (on : Bool) (fb : Memory) :
    ∃ fb' r, OneStepEffect (drawPixels pixels on) (pixels.map pixelCell) fb fb' r := by
  by_cases h : AllInRangePixel pixels
  · obtain ⟨fb', hset, -, hframe, -⟩ := setPixels_spec (fb := fb) (on := on) h
    have houtside : ∀ a, a ∉ pixels.map pixelCell → fb'.read a = fb.read a := fun a ha =>
      hframe a fun q hq e => ha (List.mem_map.2 ⟨q, hq, e.symm⟩)
    refine ⟨fb', .ok none, ?_, houtside, fun he => ?_, nofun⟩
    · rintro s rfl
      rw [drawPixels, if_pos h, finishWith, hset]
      rfl
    · obtain rfl := List.map_eq_nil_iff.1 he
      exact (Host.Outcome.next.inj hset).symm
  · exact ⟨fb, .error .coordinateOutOfRange, .of_unchanged _ fun s _ => if_neg h⟩

/-- DRAW_PIXEL is the set of one pixel. -/
theorem execDrawPixel_eq_drawPixels (x y : Nat) (on : Bool) : execDrawPixel x y on = drawPixels [(x, y)] on := by
  funext s
  have hset : setPixels s.fb [(x, y)] on = setPixel s.fb x y on := by
    cases hp : setPixel s.fb x y on <;> simp [setPixels, hp]
  simp only [execDrawPixel, drawPixels, hset, List.forall_mem_singleton, AllInRangePixel]

/-- A command that writes a list of cells and responds Ok. -/
theorem OneStepEffect.of_writeAll {command : State → Host.Outcome State Fault Refusal} {cells : List Nat} {fb : Memory}
    (writes : List (Nat × Byte)) (hcells : writes.map Prod.fst = cells)
    (h : ∀ s, s.fb = fb → command s = .next (respond none { s with fb := fb.writeAll writes })) :
    OneStepEffect command cells fb (fb.writeAll writes) (.ok none) where
  outcome := h
  frame a ha := Memory.read_writeAll_other _ _ _ fun w hw e => ha (hcells ▸ List.mem_map.2 ⟨w, hw, e⟩)
  of_no_cell he := by rw [List.map_eq_nil_iff.1 (hcells.trans he), Memory.writeAll_nil]
  of_error := nofun

theorem execClear_effect (fb : Memory) : OneStepEffect execClear (writtenCells .clear) fb (clearCells fb) (.ok none) := by
  refine .of_writeAll _ ?_ ?_
  · rw [List.map_map]; rfl
  · rintro s rfl; rfl

theorem execDrawText_effect (row column : Nat) (chars : List Byte) (on : Bool) (fb : Memory) :
    ∃ fb' r, OneStepEffect (execDrawText row column chars on) (writtenCells (.drawText row column chars on)) fb fb' r := by
  by_cases h : AllInRangeCell (textCells row (column * Config.glyphWidth) chars on)
  · refine ⟨_, _, .of_writeAll
      ((textWrites row (column * Config.glyphWidth) chars on).map fun w => (cellIndex w.1.1 w.1.2, w.2)) ?_ ?_⟩
    · simp only [writtenCells, textCells, List.map_map]; rfl
    · rintro s rfl
      rw [execDrawText, if_pos h, writeCells_of_inRange h]
      rfl
  · exact ⟨fb, .error .coordinateOutOfRange, .of_unchanged _ fun s _ => if_neg h⟩

theorem execReadCell_effect (page col : Nat) (fb : Memory) : ∃ r, OneStepEffect (execReadCell page col) [] fb fb r := by
  by_cases h : InRangeCell page col
  · refine ⟨.ok (some (fb.read (cellIndex page col))), .of_unchanged _ ?_⟩
    rintro s rfl
    rw [execReadCell, if_pos h, fbRead_of_inRange h]
    rfl
  · exact ⟨.error .coordinateOutOfRange, .of_unchanged _ fun s _ => if_neg h⟩

/-- What every command but INIT and REFRESH does: the new FB and the response depend on the command and FB only. -/
theorem exec_effect {i : Instr} (hinit : i ≠ .init) (hrefresh : i ≠ .refresh) (fb : Memory) :
    ∃ fb' r, OneStepEffect (exec i) (writtenCells i) fb fb' r := by
  cases i with
  | init => exact absurd rfl hinit
  | refresh => exact absurd rfl hrefresh
  | clear => exact ⟨_, _, execClear_effect fb⟩
  | drawPixel x y on =>
    have := drawPixels_effect [(x, y)] on fb
    rwa [← execDrawPixel_eq_drawPixels] at this
  | drawHline x y length on => exact drawPixels_effect (hlinePixels x y length) on fb
  | drawRect x y width height on filled => exact drawPixels_effect (rectPixels x y width height filled) on fb
  | drawText row column chars on => exact execDrawText_effect row column chars on fb
  | readCell page col => exact ⟨fb, execReadCell_effect page col fb⟩

/-- Everything a command can be: it starts INIT, it starts REFRESH, or it is over in one step. -/
theorem exec_cases (i : Instr) (s : State) :
    (i = .init ∧ exec i s = .next { s with fb := clearCells s.fb, st := .iStart }) ∨
    (i = .refresh ∧ exec i s = .next { s with pg := 0, st := .rStart }) ∨
    ∃ fb' r, OneStepEffect (exec i) (writtenCells i) s.fb fb' r := by
  by_cases hinit : i = .init
  · subst hinit; exact .inl ⟨rfl, rfl⟩
  by_cases hrefresh : i = .refresh
  · subst hrefresh; exact .inr (.inl ⟨rfl, rfl⟩)
  exact .inr (.inr (exec_effect hinit hrefresh s.fb))

/-- A command that addresses no cell leaves FB as it was (10_state.md R22). -/
theorem exec_fb_of_no_cell {i : Instr} {s t : State} (hcells : writtenCells i = []) (h : exec i s = .next t) :
    t.fb = s.fb := by
  obtain ⟨rfl, -⟩ | ⟨-, hs⟩ | ⟨fb', r, he⟩ := exec_cases i s
  · exact absurd (mem_writtenCells_clear.2 (by decide : 0 < Config.cellCount)) (hcells ▸ List.not_mem_nil)
  · obtain rfl := Host.Outcome.next.inj (hs.symm.trans h)
    rfl
  · obtain rfl := Host.Outcome.next.inj ((he.outcome s rfl).symm.trans h)
    exact he.of_no_cell hcells

/-- A command itself appends nothing to LOG (10_state.md R32). -/
theorem exec_log {i : Instr} {s t : State} (h : exec i s = .next t) : t.log = s.log := by
  obtain ⟨-, hs⟩ | ⟨-, hs⟩ | ⟨fb', r, he⟩ := exec_cases i s
  · obtain rfl := Host.Outcome.next.inj (hs.symm.trans h)
    rfl
  · obtain rfl := Host.Outcome.next.inj (hs.symm.trans h)
    rfl
  · obtain rfl := Host.Outcome.next.inj ((he.outcome s rfl).symm.trans h)
    rfl

/-- Settles O43: the effect of the command at the framebuffer of `s`. -/
theorem nonBusCommandsAreOneStep : Obligations.NonBusCommandsAreOneStep := by
  unfold Obligations.NonBusCommandsAreOneStep
  intro i s hidle hinit hrefresh
  obtain ⟨fb', r, h⟩ := exec_effect hinit hrefresh s.fb
  refine ⟨fb', r, ?_, h.frame, h.of_no_cell, h.of_error, ?_⟩
  · rw [h.outcome s rfl, ← hidle]
  · rintro page col rfl
    exact h.of_no_cell (writtenCells_readCell page col)

end Sys2Proof.Machine
end

section
/-! Noninterference. A view puts to one value what a step must not read; a step *sees all it reads* through a view when the step
from the viewed state is, through the view, the step from the state itself. States that look alike then step alike. -/

namespace Sys2Proof.Machine

section View

variable {view : State → State} {s : State}

/-- I_CMDS reads K only. -/
theorem initCmds_view (hk : (view s).k = s.k)
    (hbyte : ∀ b, view { txWrite b s with k := s.k + 1 } = view { txWrite b (view s) with k := s.k + 1 })
    (hdone : view { s with st := .iStop } = view { view s with st := .iStop }) :
    viewOutcome view (initCmds s) = viewOutcome view (initCmds (view s)) := by
  simp only [initCmds, hk]
  split
  · exact congrArg Host.Outcome.next (hbyte _)
  · split
    · exact congrArg Host.Outcome.next (by simpa only [hk] using hdone)
    · rfl

/-- R_PAGE_CMD reads PG only. -/
theorem refreshPageCmd_view (hpg : (view s).pg = s.pg)
    (hbyte : ∀ b, view { txWrite b s with st := .rMarkData } = view { txWrite b (view s) with st := .rMarkData }) :
    viewOutcome view (refreshPageCmd s) = viewOutcome view (refreshPageCmd (view s)) := by
  simp only [refreshPageCmd, hpg]
  split
  · exact congrArg Host.Outcome.next (hbyte _)
  · rfl

/-- R_DATA reads FB, PG and COL only. -/
theorem refreshData_view (hfb : (view s).fb = s.fb) (hpg : (view s).pg = s.pg) (hcol : (view s).col = s.col)
    (hbyte : ∀ b, view { txWrite b s with col := s.col + 1 } = view { txWrite b (view s) with col := s.col + 1 })
    (hdone : view { s with st := .rStop } = view { view s with st := .rStop }) :
    viewOutcome view (refreshData s) = viewOutcome view (refreshData (view s)) := by
  simp only [refreshData, hfb, hpg, hcol]
  split
  · cases fbRead s.fb s.pg s.col with
    | next b => exact congrArg Host.Outcome.next (hbyte b)
    | fault r => rfl
    | refused r => rfl
  · split
    · exact congrArg Host.Outcome.next (by simpa only [hfb, hpg, hcol] using hdone)
    · rfl

/-- R_EXEC reads PG and the answer only. -/
theorem refreshExec_view (hpg : (view s).pg = s.pg) (hanswer : nextAnswer (view s) = nextAnswer s)
    (hmore : view { displayAfterPage .ok (txExec s) with pg := s.pg + 1, st := .rStart } =
      view { displayAfterPage .ok (txExec (view s)) with pg := s.pg + 1, st := .rStart })
    (hlast : view (respond none (displayAfterPage .ok (txExec s))) =
      view (respond none (displayAfterPage .ok (txExec (view s)))))
    (herr : ∀ e, view (raiseTransport e (displayAfterPage (.err e) (txExec s))) =
      view (raiseTransport e (displayAfterPage (.err e) (txExec (view s))))) :
    viewOutcome view (refreshExec s) = viewOutcome view (refreshExec (view s)) := by
  simp only [refreshExec, hpg, hanswer]
  cases nextAnswer s with
  | err e => exact congrArg Host.Outcome.next (herr e)
  | ok =>
    dsimp only
    split
    · exact congrArg Host.Outcome.next hmore
    · split
      · exact congrArg Host.Outcome.next hlast
      · rfl

/-- I_EXEC reads the answer only. -/
theorem initExec_view (hanswer : nextAnswer (view s) = nextAnswer s)
    (hok : view (respond none (displayAfterInit .ok (txExec s))) = view (respond none (displayAfterInit .ok (txExec (view s)))))
    (herr : ∀ e, view (raiseTransport e (displayAfterInit (.err e) (txExec s))) =
      view (raiseTransport e (displayAfterInit (.err e) (txExec (view s))))) :
    view (initExec s) = view (initExec (view s)) := by
  simp only [initExec, hanswer]
  cases nextAnswer s with
  | ok => exact hok
  | err e => exact herr e

/-- A command reads FB only. -/
theorem exec_view {i : Instr} (hfb : (view s).fb = s.fb)
    (hinit : view { s with fb := clearCells s.fb, st := .iStart } =
      view { view s with fb := clearCells s.fb, st := .iStart })
    (hrefresh : view { s with pg := 0, st := .rStart } = view { view s with pg := 0, st := .rStart })
    (hdone : ∀ fb' r, view { s with fb := fb', st := .idle, responses := s.responses ++ [r] } =
      view { view s with fb := fb', st := .idle, responses := (view s).responses ++ [r] }) :
    viewOutcome view (exec i s) = viewOutcome view (exec i (view s)) := by
  obtain ⟨rfl, -⟩ | ⟨rfl, -⟩ | ⟨fb', r, h⟩ := exec_cases i s
  · exact congrArg Host.Outcome.next (by simpa only [hfb] using hinit)
  · exact congrArg Host.Outcome.next hrefresh
  · rw [h.outcome s rfl, h.outcome (view s) hfb]
    exact congrArg Host.Outcome.next (hdone fb' r)

/-- A view through which every command and every row of the sequencer sees all it reads is one through which every step does. -/
theorem step_view (hst : ∀ s, (view s).st = s.st)
    (hcommands : ∀ s rest, view { s with commands := rest } = { view s with commands := rest })
    (hraise : ∀ kind s, view (raise kind s) = view (raise kind (view s))) (hidem : ∀ s, view (view s) = view s)
    (hexec : ∀ i s, viewOutcome view (exec i s) = viewOutcome view (exec i (view s)))
    (hsequencer : ∀ s, viewOutcome view (sequencerStep s) = viewOutcome view (sequencerStep (view s))) (s : State) :
    viewOutcome view (step s) = viewOutcome view (step (view s)) := by
  have hport : (view s).commands = s.commands := by
    simpa only using congrArg State.commands (hcommands s s.commands)
  obtain ⟨hi, hc, hs⟩ | ⟨p, rest, e, hi, hc, hd, hs⟩ | ⟨p, rest, i, hi, hc, hd, hs⟩ | ⟨hi, hs⟩ := step_cases s
  · rw [hs, step_of_no_packet ((hst s).trans hi) (hport.trans hc)]
    exact congrArg Host.Outcome.next (hidem s).symm
  · rw [hs, step_of_packet ((hst s).trans hi) (hport.trans hc), hd, ← hcommands]
    exact congrArg Host.Outcome.next (hraise _ _)
  · rw [hs, step_of_packet ((hst s).trans hi) (hport.trans hc), hd, ← hcommands]
    exact hexec i _
  · rw [hs, step_of_busy (by rwa [hst]), hsequencer]

theorem viewOutcome_eq_self {o : Host.Outcome State Fault Refusal}
    (h : ∀ t, o = .next t → view t = t) : viewOutcome view o = o := by
  cases o with
  | next t => exact congrArg Host.Outcome.next (h t rfl)
  | fault r => rfl
  | refused r => rfl

/-- Where a step sees all it reads through the view, states that look alike step to outcomes that look alike. -/
theorem viewOutcome_step_congr (h : ∀ s, viewOutcome view (step s) = viewOutcome view (step (view s))) {s t : State}
    (hst : view s = view t) : viewOutcome view (step s) = viewOutcome view (step t) := by
  rw [h s, hst, ← h t]

end View

/-- The state with the packets `q` at the command port. -/
def presenting (q : List Packet) (s : State) : State := { s with commands := q }

/-- The views of this file: what the sequencer never reads is put to one value (10_state.md R24 to R28, R31, R32). -/
inductive SequencerView : (State → State) → Prop where
  | observations : SequencerView blockView
  | deadRegisters : SequencerView liveView
  | port (q : List Packet) : SequencerView (presenting q)

/-- Row by row the sequencer sees through each of these views all it reads. -/
theorem sequencerStep_view {view : State → State} (hview : SequencerView view) (s : State) :
    viewOutcome view (sequencerStep s) = viewOutcome view (sequencerStep (view s)) := by
  obtain ⟨fb, st, pg, col, k, txn, commands, answers, answerIndex, log, events, responses, boot, disp, freeIndex⟩ := s
  cases st with
  | iCmds => cases hview <;> exact initCmds_view rfl (fun _ => rfl) rfl
  | iExec => cases hview <;> exact congrArg Host.Outcome.next (initExec_view rfl rfl fun _ => rfl)
  | rPageCmd => cases hview <;> exact refreshPageCmd_view rfl fun _ => rfl
  | rData => cases hview <;> exact refreshData_view rfl rfl rfl (fun _ => rfl) rfl
  | rExec => cases hview <;> cases boot <;> exact refreshExec_view rfl rfl rfl rfl fun _ => rfl
  | _ => cases hview <;> rfl

/-! ### Observations and dead registers -/

/-- A step reads no observation. -/
theorem step_blockView (s : State) : viewOutcome blockView (step s) = viewOutcome blockView (step (blockView s)) :=
  step_view (view := blockView) (fun _ => rfl) (fun _ _ => rfl) (fun _ _ => rfl) (fun _ => rfl)
    (fun _ _ => exec_view rfl rfl rfl fun _ _ => rfl) (sequencerStep_view .observations) s

/-- Settles O30: a step sees through `blockView` all it reads. -/
theorem observationsDoNotMatter : Obligations.ObservationsDoNotMatter := by
  unfold Obligations.ObservationsDoNotMatter
  exact fun _ _ => viewOutcome_step_congr step_blockView

theorem liveView_idem (s : State) : liveView (liveView s) = liveView s := by
  obtain ⟨fb, st⟩ := s
  cases st <;> rfl

/-- A step reads no dead register. -/
theorem step_liveView (s : State) : viewOutcome liveView (step s) = viewOutcome liveView (step (liveView s)) :=
  step_view (view := liveView) (fun _ => rfl) (fun _ _ => rfl) (fun _ _ => rfl) liveView_idem
    (fun _ _ => exec_view rfl rfl rfl fun _ _ => rfl) (sequencerStep_view .deadRegisters) s

/-- Settles O12: a step sees through `liveView` all it reads. -/
theorem deadRegistersDoNotMatter : Obligations.DeadRegistersDoNotMatter := by
  unfold Obligations.DeadRegistersDoNotMatter
  exact fun _ _ => viewOutcome_step_congr step_liveView

end Sys2Proof.Machine
end

section
/-! What a step of the sequencer can answer, and what it leaves: FB, the command port, and LOG but for an answer (10_state.md R22,
R30, R31, R32). -/

namespace Sys2Proof.Machine

/-! ### The rows with more than one outcome -/

theorem initCmds_cases {s t : State} (h : initCmds s = .next t) :
    (∃ hk : s.k < Config.initCmds.length, t = { txWrite Config.initCmds[s.k] s with k := s.k + 1 }) ∨
    (s.k = Config.initLength ∧ t = { s with st := .iStop }) := by
  unfold initCmds at h
  split at h
  · next hk => exact .inl ⟨hk, (Host.Outcome.next.inj h).symm⟩
  · split at h
    · next hk => exact .inr ⟨hk, (Host.Outcome.next.inj h).symm⟩
    · cases h

theorem refreshPageCmd_cases {s t : State} (h : refreshPageCmd s = .next t) :
    s.pg < Config.pageCount ∧ t = { txWrite (Config.pageCmd s.pg) s with st := .rMarkData } := by
  unfold refreshPageCmd at h
  split at h
  · next hp => exact ⟨hp, (Host.Outcome.next.inj h).symm⟩
  · cases h

theorem refreshData_cases {s t : State} (h : refreshData s = .next t) :
    (InRangeCell s.pg s.col ∧ t = { txWrite (cell s s.pg s.col) s with col := s.col + 1 }) ∨
    (s.col = Config.width ∧ t = { s with st := .rStop }) := by
  unfold refreshData at h
  split at h
  · obtain ⟨v, hv, ht⟩ := andThen_eq_next h
    by_cases hc : InRangeCell s.pg s.col
    · rw [fbRead_of_inRange hc] at hv
      obtain rfl := Host.Outcome.next.inj hv
      exact .inl ⟨hc, (Host.Outcome.next.inj ht).symm⟩
    · rw [fbRead_of_not_inRange hc] at hv
      cases hv
  · split at h
    · next hc => exact .inr ⟨hc, (Host.Outcome.next.inj h).symm⟩
    · cases h

theorem refreshExec_cases {s t : State} (h : refreshExec s = .next t) :
    (nextAnswer s = .ok ∧ s.pg < Config.pageCount - 1 ∧
      t = { displayAfterPage .ok (txExec s) with pg := s.pg + 1, st := .rStart }) ∨
    (nextAnswer s = .ok ∧ s.pg = Config.pageCount - 1 ∧ t = respond none (displayAfterPage .ok (txExec s))) ∨
    ∃ e, nextAnswer s = .err e ∧ t = raiseTransport e (displayAfterPage (.err e) (txExec s)) := by
  unfold refreshExec at h
  cases ha : nextAnswer s with
  | err e =>
    rw [ha] at h
    exact .inr (.inr ⟨e, rfl, (Host.Outcome.next.inj h).symm⟩)
  | ok =>
    simp only [ha] at h
    split at h
    · next hp => exact .inl ⟨rfl, hp, (Host.Outcome.next.inj h).symm⟩
    · split at h
      · next hp => exact .inr (.inl ⟨rfl, hp, (Host.Outcome.next.inj h).symm⟩)
      · cases h

theorem initExec_cases (s : State) :
    (nextAnswer s = .ok ∧ initExec s = respond none (displayAfterInit .ok (txExec s))) ∨
    ∃ e, nextAnswer s = .err e ∧ initExec s = raiseTransport e (displayAfterInit (.err e) (txExec s)) := by
  unfold initExec
  cases nextAnswer s with
  | ok => exact .inl ⟨rfl, rfl⟩
  | err e => exact .inr ⟨e, rfl, rfl⟩

/-! ### The frame of the sequencer -/

/-- What a step of the sequencer appends to LOG (10_state.md R32). -/
def newEntries (s : State) : List LogEntry :=
  match s.st with
  | .iExec | .rExec => [⟨s.txn, nextAnswer s⟩]
  | _ => []

theorem newEntries_of_exec {s : State} (h : s.st = .iExec ∨ s.st = .rExec) : newEntries s = [⟨s.txn, nextAnswer s⟩] := by
  obtain h | h := h <;> simp only [newEntries, h]

theorem newEntries_of_not_exec {s : State} (hi : s.st ≠ .iExec) (hr : s.st ≠ .rExec) : newEntries s = [] := by
  unfold newEntries
  split
  · contradiction
  · contradiction
  · rfl

/-- The sequencer never writes FB nor takes a packet, and it appends to LOG at an answer only. -/
theorem sequencerStep_frame {s t : State} (h : sequencerStep s = .next t) :
    t.fb = s.fb ∧ t.commands = s.commands ∧ t.log = s.log ++ newEntries s := by
  cases hst : s.st <;> simp only [sequencerStep, hst] at h <;> simp only [newEntries, hst, List.append_nil]
  case iCmds => obtain ⟨-, rfl⟩ | ⟨-, rfl⟩ := initCmds_cases h <;> exact ⟨rfl, rfl, rfl⟩
  case rPageCmd => obtain ⟨-, rfl⟩ := refreshPageCmd_cases h; exact ⟨rfl, rfl, rfl⟩
  case rData => obtain ⟨-, rfl⟩ | ⟨-, rfl⟩ := refreshData_cases h <;> exact ⟨rfl, rfl, rfl⟩
  case iExec =>
    obtain rfl := Host.Outcome.next.inj h
    obtain ⟨-, ht⟩ | ⟨e, -, ht⟩ := initExec_cases s <;> simp [ht, raiseTransport]
  case rExec =>
    obtain ⟨-, -, rfl⟩ | ⟨-, -, rfl⟩ | ⟨e, -, rfl⟩ := refreshExec_cases h <;> simp [raiseTransport]
  all_goals obtain rfl := Host.Outcome.next.inj h; exact ⟨rfl, rfl, rfl⟩

/-- Settles O41: a command that addresses no cell leaves FB, and so does the sequencer. -/
theorem onlyDrawingChangesFb : Obligations.OnlyDrawingChangesFb := by
  unfold Obligations.OnlyDrawingChangesFb
  intro s t h hcommand
  obtain ⟨-, -, hs⟩ | ⟨p, rest, e, -, -, -, hs⟩ | ⟨p, rest, i, hi, hc, hd, hs⟩ | ⟨-, hs⟩ := step_cases s <;>
    rw [hs] at h
  · obtain rfl := Host.Outcome.next.inj h
    rfl
  · obtain rfl := Host.Outcome.next.inj h
    rfl
  · refine exec_fb_of_no_cell (s := { s with commands := rest }) ?_ h
    obtain hp | ⟨page, col, hp⟩ | ⟨e, hp⟩ := hcommand hi p rest hc <;> rw [hd] at hp
    · obtain rfl := Except.ok.inj hp
      rfl
    · obtain rfl := Except.ok.inj hp
      rfl
    · cases hp
  · exact (sequencerStep_frame h).1

/-- What a step appends to LOG: in IDLE nothing, for no command is a transaction. -/
theorem step_log {s t : State} (h : step s = .next t) : t.log = s.log ++ newEntries s := by
  obtain ⟨hi, -, hs⟩ | ⟨p, rest, e, hi, -, -, hs⟩ | ⟨p, rest, i, hi, -, -, hs⟩ | ⟨-, hs⟩ := step_cases s <;>
    rw [hs] at h
  · obtain rfl := Host.Outcome.next.inj h
    simp [newEntries, hi]
  · obtain rfl := Host.Outcome.next.inj h
    simp [newEntries, hi]
  · simp [newEntries, hi, exec_log h]
  · exact (sequencerStep_frame h).2.2

/-- Settles O42: a step appends `newEntries`. -/
theorem logGrowsOnlyAtAnAnswer : Obligations.LogGrowsOnlyAtAnAnswer := by
  unfold Obligations.LogGrowsOnlyAtAnAnswer
  intro s t h
  have hlog := step_log h
  refine ⟨fun hexec => ?_, fun hi hr => ?_⟩
  · rw [hlog, newEntries_of_exec hexec]
  · rw [hlog, newEntries_of_not_exec hi hr, List.append_nil]

/-! ### The command port -/

/-- Settles O8: the sequencer sees all it reads whatever is at the port, and what it answers still has the packets there. -/
theorem busyBlockHoldsThePort : Obligations.BusyBlockHoldsThePort := by
  unfold Obligations.BusyBlockHoldsThePort
  intro s q hbusy
  rw [step_of_busy hbusy]
  refine ⟨fun t h => (sequencerStep_frame h).2.1, ?_⟩
  have hkept : ∀ t, sequencerStep (presenting q s) = .next t → presenting q t = t := fun t h =>
    State.ext rfl rfl rfl rfl rfl rfl (sequencerStep_frame h).2.1.symm rfl rfl rfl rfl rfl rfl rfl rfl
  calc step (presenting q s)
    _ = sequencerStep (presenting q s) := step_of_busy hbusy
    _ = viewOutcome (presenting q) (sequencerStep (presenting q s)) := (viewOutcome_eq_self hkept).symm
    _ = viewOutcome (presenting q) (sequencerStep s) := (sequencerStep_view (.port q) s).symm

end Sys2Proof.Machine
end

section
/-! The block at rest: waiting in IDLE, and the state after reset (10_state.md R35). -/

namespace Sys2Proof.Machine

/-- Settles O7: the port offers nothing to take (log 10). -/
theorem idleWaitsForTheHost : Obligations.IdleWaitsForTheHost := by
  unfold Obligations.IdleWaitsForTheHost
  exact fun s => step_of_no_packet

/-- Settles O11: each memory is made of the free values. -/
theorem resetLeavesIdleAndUnknownCells : Obligations.ResetLeavesIdleAndUnknownCells := by
  unfold Obligations.ResetLeavesIdleAndUnknownCells
  exact ⟨rfl, rfl, fun p c h => read_memoryOf _ _ (cellIndex_lt h), fun p c h => read_memoryOf _ _ (cellIndex_lt h)⟩

/-- Settles O44: both memories are canonical, no command is in progress and LOG is empty. -/
theorem invariantAtReset : Obligations.InvariantAtReset where
  fb_wf := memoryOf_wf _
  disp_wf := memoryOf_wf _
  sequencer := trivial
  init_clear := nofun
  page_range := nofun
  pages_sent := nofun
  log_events := rfl
  boot_fresh _ _ := nofun
  boot_kept := nofun
  pages_shown := nofun

end Sys2Proof.Machine
end

section
/-! Page transactions of REFRESH (43_refresh_fsm.md R167), run row by row, and what they leave on the ghost display
(10_state.md R33). -/

namespace Sys2Proof.Machine

/-! ### Writing one page -/

/-- R_DATA after the first `c` cells of page PG have been written, for a page begun in `s`. -/
def dataWritten (s : State) (c : Nat) : State :=
  { s with
    st := .rData
    col := c
    txn := pageHeader s.pg ++ (pageData s.fb s.pg).take c
    events := s.events ++ [.txBegin] ++
      (pageHeader s.pg ++ (pageData s.fb s.pg).take c).map fun b => .txWrite b Config.ackRequired }

/-- R_EXEC for page PG, for a page begun in `s`. -/
def pageWritten (s : State) : State :=
  { s with
    st := .rExec
    col := Config.width
    txn := pageTxn s.fb s.pg
    events := s.events ++ [.txBegin] ++ ((pageTxn s.fb s.pg).map fun b => .txWrite b Config.ackRequired) ++ [.txEnd] }

theorem length_pageData (fb : Memory) (p : Nat) : (pageData fb p).length = Config.width := by
  simp [pageData]

theorem take_succ_pageData (fb : Memory) (p : Nat) {c : Nat} (hc : c < Config.width) :
    (pageData fb p).take (c + 1) = (pageData fb p).take c ++ [fb.read (cellIndex p c)] := by
  rw [List.take_succ_eq_append_getElem (by rwa [length_pageData])]
  simp [pageData]

theorem run_header {s : State} (hst : s.st = .rStart) (hpg : s.pg < Config.pageCount) :
    run 5 s = .next (dataWritten s 0) := by
  have hcmd : refreshPageCmd (refreshMarkCmd (refreshAddr (refreshStart s))) = .next _ := if_pos hpg
  rw [run, step_rStart hst, andThen_next, run, step_rAddr rfl, andThen_next, run, step_rMarkCmd rfl, andThen_next,
    run, step_rPageCmd rfl, hcmd, andThen_next, run, step_rMarkData rfl, andThen_next, run]
  simp [dataWritten, pageHeader, refreshMarkData, refreshMarkCmd, refreshAddr, refreshStart, txWrite, txBegin]

theorem step_dataWritten {s : State} {c : Nat} (hpg : s.pg < Config.pageCount) (hc : c < Config.width) :
    step (dataWritten s c) = .next (dataWritten s (c + 1)) := by
  have hread : fbRead s.fb s.pg c = .next (s.fb.read (cellIndex s.pg c)) := fbRead_of_inRange ⟨hpg, hc⟩
  rw [step_rData rfl, refreshData]
  simp [dataWritten, hc, hread, take_succ_pageData, txWrite]

theorem run_dataWritten {s : State} (hpg : s.pg < Config.pageCount) {c : Nat} (hc : c ≤ Config.width) :
    run c (dataWritten s 0) = .next (dataWritten s c) := by
  induction c with
  | zero => rfl
  | succ c ih => rw [run_add, ih (by omega), andThen_next, run_one, step_dataWritten hpg hc]

theorem run_trailer (s : State) : run 2 (dataWritten s Config.width) = .next (pageWritten s) := by
  have hdata : refreshData (dataWritten s Config.width) = .next { dataWritten s Config.width with st := .rStop } := by
    simp [refreshData, dataWritten]
  have htake : (pageData s.fb s.pg).take Config.width = pageData s.fb s.pg :=
    List.take_of_length_le (length_pageData _ _).le
  rw [run, step_rData rfl, hdata, andThen_next, run, step_rStop rfl, andThen_next, run]
  simp [refreshStop, txEnd, pageWritten, dataWritten, pageTxn, htake]

/-- A page is handed over after `WIDTH + 7` steps (43_refresh_fsm.md R167, T1 to T8). -/
theorem run_pageWritten {s : State} (hst : s.st = .rStart) (hpg : s.pg < Config.pageCount) :
    run (Config.width + 7) s = .next (pageWritten s) := by
  rw [show Config.width + 7 = 5 + (Config.width + 2) by omega, run_add, run_header hst hpg, andThen_next, run_add,
    run_dataWritten hpg le_rfl, andThen_next, run_trailer]

/-! ### The answer for one page (43_refresh_fsm.md R167, T9 to T11) -/

theorem run_page {s : State} (hst : s.st = .rStart) (hpg : s.pg < Config.pageCount) :
    run (Config.width + 8) s = refreshExec (pageWritten s) := by
  rw [show Config.width + 8 = Config.width + 7 + 1 by omega, run_add, run_pageWritten hst hpg, andThen_next, run_one,
    step_rExec rfl]

theorem nextAnswer_pageWritten (s : State) : nextAnswer (pageWritten s) = upcoming s 0 := (upcoming_zero s).symm

theorem refreshExec_more {s : State} (ha : nextAnswer s = .ok) (hpg : s.pg < Config.pageCount - 1) :
    refreshExec s = .next { displayAfterPage .ok (txExec s) with pg := s.pg + 1, st := .rStart } := by
  simp only [refreshExec, ha, if_pos hpg]

theorem refreshExec_last {s : State} (ha : nextAnswer s = .ok) (hpg : s.pg = Config.pageCount - 1) :
    refreshExec s = .next (respond none (displayAfterPage .ok (txExec s))) := by
  simp only [refreshExec, ha, if_neg hpg.not_lt, if_pos hpg]

theorem refreshExec_err {s : State} {e : TransportErrorInfo} (ha : nextAnswer s = .err e) :
    refreshExec s = .next (raiseTransport e (displayAfterPage (.err e) (txExec s))) := by
  simp only [refreshExec, ha]

/-- R_START for the next page, for a page begun in `s` and answered Ok. -/
def pageDelivered (s : State) : State :=
  { displayAfterPage .ok (txExec (pageWritten s)) with pg := s.pg + 1, st := .rStart }

@[simp] theorem pageDelivered_st (s : State) : (pageDelivered s).st = .rStart := rfl
@[simp] theorem pageDelivered_pg (s : State) : (pageDelivered s).pg = s.pg + 1 := rfl
@[simp] theorem pageDelivered_fb (s : State) : (pageDelivered s).fb = s.fb := displayAfterPage_fb _ _
@[simp] theorem pageDelivered_boot (s : State) : (pageDelivered s).boot = bootAfterPage s.boot := displayAfterPage_boot _ _

@[simp] theorem upcoming_pageDelivered (s : State) (n : Nat) : upcoming (pageDelivered s) n = upcoming s (n + 1) :=
  calc upcoming (pageDelivered s) n
    _ = upcoming (txExec (pageWritten s)) n :=
      upcoming_congr _ _ (displayAfterPage_answers _ _) (displayAfterPage_answerIndex _ _) n
    _ = upcoming s (n + 1) := upcoming_txExec (pageWritten s) n

theorem run_pageDelivered {s : State} (hst : s.st = .rStart) (hpg : s.pg < Config.pageCount - 1)
    (ha : upcoming s 0 = .ok) : run (Config.width + 8) s = .next (pageDelivered s) := by
  rw [run_page hst (by omega)]
  exact refreshExec_more (s := pageWritten s) ((nextAnswer_pageWritten s).trans ha) hpg

/-! ### Pages in order -/

theorem pagesDelivered_st {s : State} (hst : s.st = .rStart) (n : Nat) : (pageDelivered^[n] s).st = .rStart := by
  cases n with
  | zero => exact hst
  | succ n => rw [Function.iterate_succ_apply', pageDelivered_st]

theorem pagesDelivered_pg (s : State) (n : Nat) : (pageDelivered^[n] s).pg = s.pg + n := by
  induction n with
  | zero => rfl
  | succ n ih => rw [Function.iterate_succ_apply', pageDelivered_pg, ih, Nat.add_assoc]

theorem pagesDelivered_fb (s : State) (n : Nat) : (pageDelivered^[n] s).fb = s.fb := by
  induction n with
  | zero => rfl
  | succ n ih => rw [Function.iterate_succ_apply', pageDelivered_fb, ih]

theorem upcoming_pagesDelivered (s : State) (n m : Nat) : upcoming (pageDelivered^[n] s) m = upcoming s (m + n) := by
  induction n generalizing m with
  | zero => rfl
  | succ n ih => rw [Function.iterate_succ_apply', upcoming_pageDelivered, ih]; congr 1; omega

theorem pagesDelivered_boot {s : State} (hboot : s.boot = .kept) (n : Nat) : (pageDelivered^[n] s).boot = .kept := by
  induction n with
  | zero => exact hboot
  | succ n ih => rw [Function.iterate_succ_apply', pageDelivered_boot, ih]; rfl

/-- `n` pages answered Ok, none of them the last, take `n * (WIDTH + 8)` steps. -/
theorem run_pagesDelivered {s : State} (hst : s.st = .rStart) (n : Nat) (hpg : s.pg + n < Config.pageCount)
    (hok : ∀ p, p < n → upcoming s p = .ok) : run (n * (Config.width + 8)) s = .next (pageDelivered^[n] s) := by
  induction n with
  | zero => rw [Nat.zero_mul]; rfl
  | succ n ih =>
    have hnext : upcoming (pageDelivered^[n] s) 0 = .ok := by
      rw [upcoming_pagesDelivered, Nat.zero_add]
      exact hok n n.lt_succ_self
    rw [Nat.succ_mul, run_add, ih (by omega) fun p hp => hok p (by omega), andThen_next,
      run_pageDelivered (pagesDelivered_st hst n) (by rw [pagesDelivered_pg]; omega) hnext, Function.iterate_succ_apply']

/-! ### The display (log 13) -/

theorem pageTxn_getD (fb : Memory) (p : Nat) {c : Nat} (hc : c < Config.width) (v : Byte) :
    (pageTxn fb p).getD (4 + c) v = fb.read (cellIndex p c) := by
  simp [pageTxn, pageHeader, pageData, List.getD_eq_getElem?_getD, Nat.add_comm 4 c, hc]

/-- In the boot order a page answered Ok shows its cells; the other pages show what they did. -/
theorem shown_page_ok {s : State} (hboot : s.boot = .kept) {q c : Nat} (hc : c < Config.width) :
    shown (displayAfterPage .ok (txExec (pageWritten s))) q c = if q = s.pg then cell s q c else shown s q c := by
  rw [displayAfterPage_kept_ok (txExec (pageWritten s)) hboot]
  refine (shown_displayPage hc).trans ?_
  by_cases hq : q = s.pg
  · rw [if_pos hq, hq]
    exact (if_pos rfl).trans (pageTxn_getD s.fb s.pg hc _)
  · rw [if_neg hq]
    exact if_neg hq

/-- In the boot order a page answered with an error leaves the other pages as they were. -/
theorem shown_page_err {s : State} {e : TransportErrorInfo} (hboot : s.boot = .kept) {q c : Nat} (hc : c < Config.width)
    (hq : q ≠ s.pg) : shown (displayAfterPage (.err e) (txExec (pageWritten s))) q c = shown s q c := by
  rw [displayAfterPage_kept_err (txExec (pageWritten s)) e hboot]
  exact shown_displayLost_other hc hq

theorem shown_pagesDelivered {s : State} (hboot : s.boot = .kept) (hpg : s.pg = 0) (n : Nat) {q c : Nat}
    (hc : c < Config.width) : shown (pageDelivered^[n] s) q c = if q < n then cell s q c else shown s q c := by
  induction n with
  | zero => rfl
  | succ n ih =>
    have hcell : cell (pageDelivered^[n] s) q c = cell s q c := by rw [cell, pagesDelivered_fb, cell]
    rw [Function.iterate_succ_apply']
    refine (shown_page_ok (pagesDelivered_boot hboot n) hc).trans ?_
    rw [pagesDelivered_pg, hpg, Nat.zero_add, hcell, ih]
    by_cases hq : q = n
    · rw [if_pos hq, if_pos (by omega)]
    · rw [if_neg hq]
      exact if_congr (by omega) rfl rfl

/-! ### A whole REFRESH -/

/-- Row T0: the state in which REFRESH begins its first page. -/
def refreshBegun (s : State) (rest : List Packet) : State := { s with commands := rest, pg := 0, st := .rStart }

theorem step_refresh {s : State} {rest : List Packet} (hst : s.st = .idle) (hc : s.commands = [0x70] :: rest) :
    step s = .next (refreshBegun s rest) := by
  rw [step_of_packet hst hc, show decode [0x70] = .ok .refresh by decide]
  rfl

/-- The state in which a REFRESH begins page `n`, the pages before it answered Ok. -/
def refreshAtPage (s : State) (rest : List Packet) (n : Nat) : State := pageDelivered^[n] (refreshBegun s rest)

section AtPage

variable (s : State) (rest : List Packet) (n : Nat)

@[simp] theorem refreshAtPage_st : (refreshAtPage s rest n).st = .rStart := pagesDelivered_st rfl n
@[simp] theorem refreshAtPage_pg : (refreshAtPage s rest n).pg = n := (pagesDelivered_pg _ n).trans (Nat.zero_add n)
@[simp] theorem refreshAtPage_fb : (refreshAtPage s rest n).fb = s.fb := pagesDelivered_fb _ n
@[simp] theorem upcoming_refreshAtPage (m : Nat) : upcoming (refreshAtPage s rest n) m = upcoming s (m + n) :=
  upcoming_pagesDelivered _ n m

@[simp] theorem cell_refreshAtPage (p c : Nat) : cell (refreshAtPage s rest n) p c = cell s p c :=
  congrArg (fun fb : Memory => fb.read (cellIndex p c)) (refreshAtPage_fb s rest n)

end AtPage

theorem refreshAtPage_boot {s : State} (hboot : s.boot = .kept) (rest : List Packet) (n : Nat) :
    (refreshAtPage s rest n).boot = .kept := pagesDelivered_boot (s := refreshBegun s rest) hboot n

theorem shown_refreshAtPage {s : State} (hboot : s.boot = .kept) (rest : List Packet) (n : Nat) {q c : Nat}
    (hc : c < Config.width) : shown (refreshAtPage s rest n) q c = if q < n then cell s q c else shown s q c :=
  shown_pagesDelivered (s := refreshBegun s rest) hboot rfl n hc

/-- A REFRESH up to the answer for page `n`, the answers before it being Ok. -/
theorem run_refresh {s : State} {rest : List Packet} (hst : s.st = .idle) (hc : s.commands = [0x70] :: rest) {n : Nat}
    (hn : n < Config.pageCount) (hok : ∀ p, p < n → upcoming s p = .ok) :
    run (1 + (n + 1) * (Config.width + 8)) s = refreshExec (pageWritten (refreshAtPage s rest n)) := by
  have hbefore : run (n * (Config.width + 8)) (refreshBegun s rest) = .next (refreshAtPage s rest n) :=
    run_pagesDelivered rfl n (by simpa [refreshBegun] using hn) hok
  rw [run_add, run_one, step_refresh hst hc, andThen_next, Nat.succ_mul, run_add, hbefore, andThen_next,
    run_page (refreshAtPage_st s rest n) (by simpa using hn)]

theorem nextAnswer_refreshAtPage (s : State) (rest : List Packet) (n : Nat) :
    nextAnswer (pageWritten (refreshAtPage s rest n)) = upcoming s n := by
  rw [nextAnswer_pageWritten, upcoming_refreshAtPage, Nat.zero_add]

/-- A REFRESH all of whose answers are Ok. -/
theorem run_refresh_ok {s : State} {rest : List Packet} (hst : s.st = .idle) (hc : s.commands = [0x70] :: rest)
    (hok : ∀ p, p < Config.pageCount → upcoming s p = .ok) :
    run (1 + Config.pageCount * (Config.width + 8)) s =
      .next (respond none (displayAfterPage .ok (txExec (pageWritten (refreshAtPage s rest (Config.pageCount - 1)))))) := by
  have hlast : Config.pageCount - 1 < Config.pageCount := by decide
  have hrun := run_refresh hst hc hlast fun p hp => hok p (hp.trans hlast)
  rw [Nat.sub_add_cancel (by decide)] at hrun
  refine hrun.trans (refreshExec_last ?_ (refreshAtPage_pg s rest _))
  exact (nextAnswer_refreshAtPage s rest _).trans (hok _ hlast)

/-- A REFRESH whose first failing page is `f`. -/
theorem run_refresh_err {s : State} {rest : List Packet} {f : Nat} {e : TransportErrorInfo} (hst : s.st = .idle)
    (hc : s.commands = [0x70] :: rest) (hf : f < Config.pageCount) (hok : ∀ p, p < f → upcoming s p = .ok)
    (herr : upcoming s f = .err e) :
    run (1 + (f + 1) * (Config.width + 8)) s =
      .next (raiseTransport e (displayAfterPage (.err e) (txExec (pageWritten (refreshAtPage s rest f))))) :=
  (run_refresh hst hc hf hok).trans (refreshExec_err ((nextAnswer_refreshAtPage s rest f).trans herr))

/-- The answer for a page of a REFRESH keeps the boot order. -/
theorem refreshAtPage_answered_boot {s : State} (hboot : s.boot = .kept) (rest : List Packet) (n : Nat) (a : BusAnswer) :
    (displayAfterPage a (txExec (pageWritten (refreshAtPage s rest n)))).boot = .kept := by
  rw [displayAfterPage_boot, txExec_boot]
  exact congrArg bootAfterPage (refreshAtPage_boot hboot rest n)

/-- Settles O49: the pages delivered show FB, and the last one answered shows FB too or, on an error, changes no other page. -/
theorem refreshReachesTheDisplay : Obligations.RefreshReachesTheDisplay := by
  unfold Obligations.RefreshReachesTheDisplay
  intro s rest hst hboot hc
  have hkept := refreshAtPage_boot hboot rest
  refine ⟨fun hok => ?_, fun f e hf hok herr => ?_⟩
  · refine ⟨_, run_refresh_ok hst hc hok, refreshAtPage_answered_boot hboot rest _ _, fun p c hpc => ?_⟩
    refine (shown_page_ok (hkept _) hpc.2).trans ?_
    rw [shown_refreshAtPage hboot rest _ hpc.2, refreshAtPage_pg]
    by_cases hp : p = Config.pageCount - 1
    · rw [if_pos hp, cell_refreshAtPage]
    · have hbefore : p < Config.pageCount - 1 := by have := hpc.1; omega
      rw [if_neg hp, if_pos hbefore]
  · refine ⟨_, run_refresh_err hst hc hf hok herr, refreshAtPage_answered_boot hboot rest _ _, fun p c hp hcol => ?_,
      fun p c hp hpc => ?_⟩
    · refine (shown_page_err (hkept f) hcol (by rw [refreshAtPage_pg]; omega)).trans ?_
      rw [shown_refreshAtPage hboot rest f hcol, if_pos hp]
    · refine (shown_page_err (hkept f) hpc.2 (by rw [refreshAtPage_pg]; omega)).trans ?_
      rw [shown_refreshAtPage hboot rest f hpc.2, if_neg (by omega)]

end Sys2Proof.Machine
end

section
/-! Proofs of the statements of 20_memory.md: PAD (R51, R52), all or nothing (R58), and idempotence (R61). -/

namespace Sys2Proof.Machine

/-! ### PAD -/

theorem pixelOf_pad (x y : Nat) : pixelOf (pad x y) = (x, y) :=
  Prod.ext rfl (Nat.div_add_mod y 8)

theorem pad_pixelOf (p c : Nat) {b : Nat} (hb : b < 8) : pad c (8 * p + b) = ⟨p, c, b⟩ := by
  have hpage : (8 * p + b) / 8 = p := by omega
  have hbit : (8 * p + b) % 8 = b := by omega
  rw [pad, hpage, hbit]

/-- Settles O13: the mask of a bit has that bit only. -/
theorem padSelectsOneBit : Obligations.PadSelectsOneBit := by
  unfold Obligations.PadSelectsOneBit
  intro x y h
  obtain ⟨⟨hpage, -⟩, hbit⟩ := pad_inRange h
  refine ⟨rfl, hpage, rfl, rfl, Nat.le_of_lt_succ hbit, rfl, fun b hb => ?_⟩
  rw [getLsbD_bitMask _ _ hb, decide_eq_true_iff]
  rfl

/-- Settles O14: `y` is `8 * (y / 8) + y % 8`, and a bit number below 8 is that sum's remainder. -/
theorem padAndItsInverse : Obligations.PadAndItsInverse := by
  unfold Obligations.PadAndItsInverse
  refine ⟨fun x y _ => pixelOf_pad x y, fun p c b h hb => ?_⟩
  exact ⟨rfl, pixelOf_inRange h hb, pad_pixelOf p c hb⟩

/-! ### All or nothing (20_memory.md R58) -/

theorem drawPixels_of_inRange {pixels : List (Nat × Nat)} (h : AllInRangePixel pixels) (on : Bool) (s : State) :
    drawPixels pixels on s = finishWith s (setPixels s.fb pixels on) :=
  if_pos h

theorem drawPixels_of_not_inRange {pixels : List (Nat × Nat)} (h : ¬ AllInRangePixel pixels) (on : Bool) (s : State) :
    drawPixels pixels on s = .next (raise .coordinateOutOfRange s) :=
  if_neg h

theorem drawPixels_nil (on : Bool) (s : State) : drawPixels [] on s = .next (respond none s) :=
  drawPixels_of_inRange (fun _ h => absurd h List.not_mem_nil) on s

/-- One pixel of the set out of range is enough for the error. -/
theorem drawPixels_of_mem_not_inRange {pixels : List (Nat × Nat)} {u v : Nat} (hmem : (u, v) ∈ pixels)
    (hout : ¬ InRangePixel u v) (on : Bool) (s : State) :
    drawPixels pixels on s = .next (raise .coordinateOutOfRange s) :=
  drawPixels_of_not_inRange (fun h => hout (h (u, v) hmem)) on s

theorem rectPixels_of_width_zero (x y height : Nat) (filled : Bool) : rectPixels x y 0 height filled = [] :=
  List.flatMap_eq_nil_iff.2 fun _ _ => rfl

theorem execDrawText_of_inRange {row column : Nat} {chars : List Byte} {on : Bool}
    (h : AllInRangeCell (textCells row (column * Config.glyphWidth) chars on)) (s : State) :
    execDrawText row column chars on s =
      finishWith s (writeCells s.fb (textWrites row (column * Config.glyphWidth) chars on)) :=
  if_pos h

theorem execDrawText_of_not_inRange {row column : Nat} {chars : List Byte} {on : Bool}
    (h : ¬ AllInRangeCell (textCells row (column * Config.glyphWidth) chars on)) (s : State) :
    execDrawText row column chars on s = .next (raise .coordinateOutOfRange s) :=
  if_neg h

theorem execDrawText_nil (row column : Nat) (on : Bool) (s : State) :
    execDrawText row column [] on s = .next (respond none s) :=
  execDrawText_of_inRange (fun _ h => absurd h List.not_mem_nil) s

/-- Column `i` of character `k` is a cell of the text. -/
theorem mem_textCells_of_char (row c0 : Nat) {chars : List Byte} (on : Bool) {k i : Nat} (hk : k < chars.length)
    (hi : i < Config.glyphWidth) : (row, c0 + k * Config.glyphWidth + i) ∈ textCells row c0 chars on :=
  List.mem_map.2 ⟨_, mem_textWrites.2 ⟨k, i, hk, hi, rfl⟩, rfl⟩

/-- Settles O29: the address out of range is in the command's set, and an empty set is in range. -/
theorem allOrNothing : Obligations.AllOrNothing := by
  unfold Obligations.AllOrNothing
  intro s
  refine ⟨?hline, ?rect, ?text, ?hlineEmpty, ?rectNoWidth, ?rectNoHeight, ?textEmpty⟩
  case hline =>
    intro x y length on i hi hout
    have hmem : (x + i, y) ∈ hlinePixels x y length := mem_hlinePixels.2 ⟨rfl, by omega, by omega⟩
    exact drawPixels_of_mem_not_inRange hmem hout on s
  case rect =>
    intro x y width height on filled i j hi hj hside hout
    have hmem : (x + i, y + j) ∈ rectPixels x y width height filled :=
      mem_rectPixels.2 ⟨by omega, hside.imp_right fun _ => by omega⟩
    exact drawPixels_of_mem_not_inRange hmem hout on s
  case text =>
    intro row column chars on k i hk hi hout
    exact execDrawText_of_not_inRange (fun h => hout (h _ (mem_textCells_of_char row _ on hk hi))) s
  case hlineEmpty => exact fun _ _ on => drawPixels_nil on s
  case rectNoWidth =>
    intro x y height on filled
    change drawPixels (rectPixels x y 0 height filled) on s = .next (respond none s)
    rw [rectPixels_of_width_zero, drawPixels_nil]
  case rectNoHeight => exact fun _ _ _ on _ => drawPixels_nil on s
  case textEmpty => exact fun row column on => execDrawText_nil row column on s

/-! ### Idempotence (20_memory.md R61) -/

/-- What several writes leave in a cell depends on the memory before only where none of them writes it. -/
theorem Memory.read_writeAll_congr {m n : Memory} {writes : List (Nat × Byte)} {a : Nat}
    (h : (∃ w ∈ writes, w.1 = a) ∨ m.read a = n.read a) :
    (m.writeAll writes).read a = (n.writeAll writes).read a := by
  induction writes generalizing m n with
  | nil => simpa using h
  | cons w writes ih =>
    rw [writeAll_cons, writeAll_cons]
    apply ih
    by_cases ha : w.1 = a
    · exact .inr (by simp [ha])
    · simpa [ha] using h

/-- The same writes again change nothing. -/
theorem Memory.read_writeAll_writeAll (m : Memory) (writes : List (Nat × Byte)) (a : Nat) :
    ((m.writeAll writes).writeAll writes).read a = (m.writeAll writes).read a := by
  by_cases h : ∃ w ∈ writes, w.1 = a
  · exact read_writeAll_congr (.inl h)
  · exact read_writeAll_other _ _ _ fun w hw e => h ⟨w, hw, e⟩

/-- Setting the same pixels again changes no cell: a cell with a pixel of the set has all its pixels as they were, any other
cell is not touched. -/
theorem setPixels_setPixels {pixels : List (Nat × Nat)} (h : AllInRangePixel pixels) (on : Bool) (fb : Memory) :
    ∃ fb₁ fb₂, setPixels fb pixels on = .next fb₁ ∧ setPixels fb₁ pixels on = .next fb₂ ∧
      ∀ a, fb₂.read a = fb₁.read a := by
  obtain ⟨fb₁, hset₁, hpix₁, -, -⟩ := setPixels_spec (fb := fb) (on := on) h
  obtain ⟨fb₂, hset₂, hpix₂, hframe₂, -⟩ := setPixels_spec (fb := fb₁) (on := on) h
  have hpix : ∀ u v, InRangePixel u v → pixelAt fb₂ u v = pixelAt fb₁ u v := by
    intro u v huv
    rw [hpix₂ u v huv, hpix₁ u v huv]
    split <;> rfl
  refine ⟨fb₁, fb₂, hset₁, hset₂, fun a => ?_⟩
  by_cases ha : ∃ q ∈ pixels, a = cellIndex (q.2 / 8) q.1
  · obtain ⟨q, hq, rfl⟩ := ha
    exact read_eq_of_all_pixels hpix (pad_inRange (h q hq)).1
  · exact hframe₂ a fun q hq e => ha ⟨q, hq, e⟩

/-- Run again on the state it answered, the command completes and leaves every cell of FB as it is. -/
def IdempotentOnFb (command : State → Host.Outcome State Fault Refusal) : Prop :=
  ∀ s t, command s = .next t → ∃ u, command t = .next u ∧ ∀ a, u.fb.read a = t.fb.read a

/-- A command that never touches FB. -/
theorem IdempotentOnFb.of_unchanged {command : State → Host.Outcome State Fault Refusal}
    (h : ∀ s, ∃ t, command s = .next t ∧ t.fb = s.fb) : IdempotentOnFb command := by
  intro _ t _
  obtain ⟨u, hu, hfb⟩ := h t
  exact ⟨u, hu, fun a => by rw [hfb]⟩

/-- A command that ends with the framebuffer that `draw` makes, where `draw` after itself changes no cell. -/
theorem IdempotentOnFb.of_finishWith {command : State → Host.Outcome State Fault Refusal}
    {draw : Memory → Host.Outcome Memory Fault Refusal} (hcommand : ∀ s, command s = finishWith s (draw s.fb))
    (hdraw : ∀ fb, ∃ fb₁ fb₂, draw fb = .next fb₁ ∧ draw fb₁ = .next fb₂ ∧ ∀ a, fb₂.read a = fb₁.read a) :
    IdempotentOnFb command := by
  intro s t h
  obtain ⟨fb₁, fb₂, hdraw₁, hdraw₂, hread⟩ := hdraw s.fb
  rw [hcommand, hdraw₁] at h
  obtain rfl := Host.Outcome.next.inj h
  exact ⟨_, (hcommand _).trans (congrArg (finishWith _) hdraw₂), hread⟩

theorem drawPixels_idempotent (pixels : List (Nat × Nat)) (on : Bool) : IdempotentOnFb (drawPixels pixels on) := by
  by_cases h : AllInRangePixel pixels
  · exact .of_finishWith (drawPixels_of_inRange h on) (setPixels_setPixels h on)
  · exact .of_unchanged fun s => ⟨_, drawPixels_of_not_inRange h on s, rfl⟩

theorem execClear_idempotent : IdempotentOnFb execClear :=
  .of_finishWith (fun _ => rfl) fun _ => ⟨_, _, rfl, rfl, Memory.read_writeAll_writeAll _ _⟩

theorem execDrawText_idempotent (row column : Nat) (chars : List Byte) (on : Bool) :
    IdempotentOnFb (execDrawText row column chars on) := by
  by_cases h : AllInRangeCell (textCells row (column * Config.glyphWidth) chars on)
  · refine .of_finishWith (draw := (writeCells · _)) (execDrawText_of_inRange h) fun _ => ?_
    exact ⟨_, _, writeCells_of_inRange h, writeCells_of_inRange h, Memory.read_writeAll_writeAll _ _⟩
  · exact .of_unchanged fun s => ⟨_, execDrawText_of_not_inRange h s, rfl⟩

/-- A command answers a next state, as no command faults and none is without a meaning. -/
theorem exec_next (i : Instr) (s : State) : ∃ t, exec i s = .next t := by
  obtain ⟨-, h⟩ | ⟨-, h⟩ | ⟨_, _, h⟩ := exec_cases i s
  · exact ⟨_, h⟩
  · exact ⟨_, h⟩
  · exact ⟨_, h.outcome s rfl⟩

theorem exec_idempotent_of_no_cell {i : Instr} (hcells : writtenCells i = []) : IdempotentOnFb (exec i) :=
  .of_unchanged fun s => (exec_next i s).imp fun _ h => ⟨h, exec_fb_of_no_cell hcells h⟩

/-- Settles O26: pixels set again and cells written again stay as they are; the other commands leave FB. -/
theorem drawingIsIdempotent : Obligations.DrawingIsIdempotent := by
  unfold Obligations.DrawingIsIdempotent
  intro i s t hinit
  suffices h : IdempotentOnFb (exec i) from h s t
  cases i with
  | init => exact absurd rfl hinit
  | clear => exact execClear_idempotent
  | drawPixel x y on =>
    have h := drawPixels_idempotent [(x, y)] on
    rwa [← execDrawPixel_eq_drawPixels] at h
  | drawHline x y length on => exact drawPixels_idempotent (hlinePixels x y length) on
  | drawRect x y width height on filled => exact drawPixels_idempotent (rectPixels x y width height filled) on
  | drawText row column chars on => exact execDrawText_idempotent row column chars on
  | refresh => exact exec_idempotent_of_no_cell writtenCells_refresh
  | readCell page col => exact exec_idempotent_of_no_cell (writtenCells_readCell page col)

end Sys2Proof.Machine
end

section
/-! A command and its packet determine each other (30_encoding.md R81 to R86): the parts of a command, the opcode bytes that pass
the first five tests of R85, and the round trip both ways. -/

namespace Sys2Proof

/-! ### The parts of a command (30_encoding.md R81, R82, R84) -/

@[simp] def Instr.opcode : Instr → Opcode
  | .init => .init
  | .clear => .clear
  | .drawPixel .. => .drawPixel
  | .drawHline .. => .drawHline
  | .drawRect .. => .drawRect
  | .drawText .. => .drawText
  | .refresh => .refresh
  | .readCell .. => .readCell

/-- F of the command's opcode byte. -/
@[simp] def Instr.filledFlag : Instr → Bool
  | .drawRect _ _ _ _ _ filled => filled
  | _ => false

/-- ON of the command's opcode byte. -/
@[simp] def Instr.onFlag : Instr → Bool
  | .drawPixel _ _ on => on
  | .drawHline _ _ _ on => on
  | .drawRect _ _ _ _ on _ => on
  | .drawText _ _ _ on => on
  | _ => false

/-- The bytes after the command's opcode byte. -/
@[simp] def Instr.operandBytes : Instr → List Byte
  | .init => []
  | .clear => []
  | .drawPixel x y _ => [operandByte x, operandByte y]
  | .drawHline x y length _ => [operandByte x, operandByte y, operandByte length]
  | .drawRect x y width height _ _ => [operandByte x, operandByte y, operandByte width, operandByte height]
  | .drawText row column chars _ => operandByte row :: operandByte column :: operandByte chars.length :: chars
  | .refresh => []
  | .readCell page col => [operandByte page, operandByte col]

theorem encode_eq (i : Instr) : encode i = opcodeByte i.opcode.code i.filledFlag i.onFlag :: i.operandBytes := by
  cases i <;> rfl

/-! ### Opcode bytes that pass the tests of R85 on them -/

/-- `b` is an opcode byte of `op`: the tests 2 to 5 of 30_encoding.md R85 do not reject it. -/
structure OpcodeByteOf (b : Byte) (op : Opcode) : Prop where
  opcode : opcodeOf (opcField b) = some op
  reserved : rsvField b = 0
  filled : filledField b = true → op.usesFilled = true
  on : onField b = true → op.usesOn = true

theorem opcodeByteOf_encoded (i : Instr) : OpcodeByteOf (opcodeByte i.opcode.code i.filledFlag i.onFlag) i.opcode where
  opcode := by rw [opcField_opcodeByte, opcodeOf_code]
  reserved := rsvField_opcodeByte _ _ _
  filled h := by
    rw [filledField_opcodeByte] at h
    cases i with
    | drawRect => rfl
    | _ => cases h
  on h := by
    rw [onField_opcodeByte] at h
    cases i with
    | drawPixel | drawHline | drawRect | drawText => rfl
    | _ => cases h

/-- Past the opcode byte, decoding is the reading of the operands. -/
theorem OpcodeByteOf.decode_cons {b : Byte} {op : Opcode} (h : OpcodeByteOf b op) (operands : List Byte) :
    decode (b :: operands) = decodeOperands op (filledField b) (onField b) operands := by
  have hf : ¬ (filledField b && !op.usesFilled) = true := by simpa using h.filled
  have ho : ¬ (onField b && !op.usesOn) = true := by simpa using h.on
  simp only [decode, h.opcode, h.reserved, ne_eq, not_true_eq_false, if_false, if_neg hf, if_neg ho]

theorem exists_opcodeByteOf_of_decode {p : Packet} {i : Instr} (h : decode p = .ok i) :
    ∃ b operands op, p = b :: operands ∧ OpcodeByteOf b op := by
  unfold decode at h
  split at h
  · cases h
  · next b operands =>
    split at h
    · cases h
    · next op hop =>
      split_ifs at h with hr hf ho
      exact ⟨b, operands, op, rfl, hop, not_not.1 hr, by simpa using hf, by simpa using ho⟩

/-! ### Operands (30_encoding.md R82, R83) -/

/-- The operand bytes of a well-formed command read back as its operands. -/
theorem decodeOperands_operandBytes {i : Instr} (h : i.wellFormed = true) :
    decodeOperands i.opcode i.filledFlag i.onFlag i.operandBytes = .ok i := by
  cases i with
  | init | clear | refresh => rfl
  | drawPixel | drawHline | drawRect | drawText | readCell =>
    simp only [Instr.wellFormed, Bool.and_eq_true] at h
    simp [decodeOperands, operandByte_toNat, h]

/-- The command read under an opcode is well formed, has that opcode and of the flags those it may have, and the bytes read are its
operand bytes. -/
theorem eq_of_decodeOperands {op : Opcode} {filled on : Bool} {operands : List Byte} {i : Instr}
    (h : decodeOperands op filled on operands = .ok i) :
    i.wellFormed = true ∧ i.opcode = op ∧ i.filledFlag = (filled && op.usesFilled) ∧ i.onFlag = (on && op.usesOn) ∧
      i.operandBytes = operands := by
  cases op with
  | init | clear | refresh =>
    simp only [decodeOperands] at h
    split at h <;> cases h
    simp [Instr.wellFormed, Opcode.usesFilled, Opcode.usesOn]
  | drawPixel | drawHline | drawRect | readCell =>
    simp only [decodeOperands] at h
    split at h <;> cases h
    simp [Instr.wellFormed, operandFits_toNat, Opcode.usesFilled, Opcode.usesOn]
  | drawText =>
    simp only [decodeOperands] at h
    split at h
    · split_ifs at h with hn
      cases h
      simp [Instr.wellFormed, operandFits_toNat, Opcode.usesFilled, Opcode.usesOn, hn]
    · cases h

theorem decode_encode {i : Instr} (h : i.wellFormed = true) : decode (encode i) = .ok i := by
  rw [encode_eq, (opcodeByteOf_encoded i).decode_cons, filledField_opcodeByte, onField_opcodeByte, decodeOperands_operandBytes h]

/-- Settles O2: the encoded opcode byte passes the tests on it and gives back its fields, the operand bytes their operands. -/
theorem decodeOfEncode : Obligations.DecodeOfEncode := by
  unfold Obligations.DecodeOfEncode
  exact fun i => decode_encode

/-- Settles O3: the opcode byte is made of the fields read from it, the operand bytes are those of the command. -/
theorem encodeOfDecode : Obligations.EncodeOfDecode := by
  unfold Obligations.EncodeOfDecode
  intro p i h
  obtain ⟨b, operands, op, rfl, hb⟩ := exists_opcodeByteOf_of_decode h
  rw [hb.decode_cons] at h
  obtain ⟨hwf, hop, hf, ho, hbytes⟩ := eq_of_decodeOperands h
  rw [Bool.and_eq_left_iff_imp.2 hb.filled] at hf
  rw [Bool.and_eq_left_iff_imp.2 hb.on] at ho
  refine ⟨hwf, ?_⟩
  rw [encode_eq, hop, hf, ho, hbytes, ← eq_code_of_opcodeOf hb.opcode, opcodeByte_fields b hb.reserved]

theorem decode_of_encode_eq {p : Packet} {i : Instr} (hp : encode i = p) (h : i.wellFormed = true) : decode p = .ok i :=
  hp ▸ decode_encode h

/-- Settles O1: each packet is the encoding of its command, which is well formed. -/
theorem samplePacketsDecode : Obligations.SamplePacketsDecode := by
  unfold Obligations.SamplePacketsDecode
  refine ⟨?_, ?_, ?_, ?_, ?_, ?_, ?_, ?_, ?_⟩ <;> exact decode_of_encode_eq rfl rfl

end Sys2Proof
end

section
/-! Illegal packets (30_encoding.md R85): what each of the six tests says of the fields the decoder reads, and that the decoder
rejects under the name of the first test that does. -/

namespace Sys2Proof.Machine

/-! ### The fields of an opcode byte, as numbers (30_encoding.md R81) -/

theorem toNat_opcField (b : Byte) : (opcField b).toNat = b.toNat / 16 := by
  revert b; decide +kernel

theorem toNat_rsvField (b : Byte) : (rsvField b).toNat = b.toNat / 4 % 4 := by
  revert b; decide +kernel

theorem filledField_iff (b : Byte) : filledField b = true ↔ b.toNat / 2 % 2 = 1 := by
  revert b; decide +kernel

theorem onField_iff (b : Byte) : onField b = true ↔ b.toNat % 2 = 1 := by
  revert b; decide +kernel

theorem opcodeOf_eq_none_iff (opc : BitVec 4) : opcodeOf opc = none ↔ opc.toNat = 0 ∨ 9 ≤ opc.toNat := by
  revert opc; decide

/-! ### The tests (30_encoding.md R85) -/

section Tests
variable {b : Byte} {operands : List Byte}

theorem not_failsTest_noOpcodeByte : ¬ failsTest (b :: operands) .noOpcodeByte :=
  Nat.succ_ne_zero _

theorem failsTest_reservedOpcode_iff : failsTest (b :: operands) .reservedOpcode ↔ opcodeOf (opcField b) = none := by
  rw [opcodeOf_eq_none_iff, toNat_opcField]
  rfl

theorem failsTest_reservedBits_iff : failsTest (b :: operands) .reservedBits ↔ rsvField b ≠ 0 := by
  rw [ne_eq, ← BitVec.toNat_inj, toNat_rsvField]
  rfl

variable {op : Opcode} (hop : opcodeOf (opcField b) = some op)
include hop

theorem toNat_div_of_opcodeOf : b.toNat / 16 = op.code.toNat := by
  rw [← toNat_opcField, eq_code_of_opcodeOf hop]

theorem failsTest_filledFlag_iff : failsTest (b :: operands) .filledFlag ↔ (filledField b && !op.usesFilled) = true := by
  have huses : op.code.toNat ≠ 5 ↔ op.usesFilled = false := by cases op <;> decide
  rw [Bool.and_eq_true, Bool.not_eq_true', filledField_iff, ← huses, ← toNat_div_of_opcodeOf hop]
  rfl

theorem failsTest_onFlag_iff : failsTest (b :: operands) .onFlag ↔ (onField b && !op.usesOn) = true := by
  have huses : (op.code.toNat = 1 ∨ op.code.toNat = 2 ∨ op.code.toNat = 7 ∨ op.code.toNat = 8) ↔ op.usesOn = false := by
    cases op <;> decide
  rw [Bool.and_eq_true, Bool.not_eq_true', onField_iff, ← huses, ← toNat_div_of_opcodeOf hop]
  rfl

theorem failsTest_wrongLength_iff :
    failsTest (b :: operands) .wrongLength ↔ ¬ hasFormatLength op.code.toNat (b :: operands) := by
  rw [← toNat_div_of_opcodeOf hop]
  rfl

end Tests

/-- The operands are read where the packet has the length of its format, and are rejected for their length elsewhere. -/
theorem decodeOperands_cases (op : Opcode) (filled on : Bool) (b : Byte) (operands : List Byte) :
    (∃ i, decodeOperands op filled on operands = .ok i ∧ hasFormatLength op.code.toNat (b :: operands)) ∨
    (decodeOperands op filled on operands = .error .wrongLength ∧ ¬ hasFormatLength op.code.toNat (b :: operands)) := by
  cases op with
  | init | clear | refresh =>
    match operands with
    | [] => exact .inl ⟨_, rfl, rfl⟩
    | _ :: _ => exact .inr ⟨rfl, by simp [hasFormatLength, Opcode.code]⟩
  | drawPixel | readCell =>
    match operands with
    | [_, _] => exact .inl ⟨_, rfl, rfl⟩
    | [] | [_] | _ :: _ :: _ :: _ => exact .inr ⟨rfl, by simp [hasFormatLength, Opcode.code]⟩
  | drawHline =>
    match operands with
    | [_, _, _] => exact .inl ⟨_, rfl, rfl⟩
    | [] | [_] | [_, _] | _ :: _ :: _ :: _ :: _ => exact .inr ⟨rfl, by simp [hasFormatLength, Opcode.code]⟩
  | drawRect =>
    match operands with
    | [_, _, _, _] => exact .inl ⟨_, rfl, rfl⟩
    | [] | [_] | [_, _] | [_, _, _] | _ :: _ :: _ :: _ :: _ :: _ => exact .inr ⟨rfl, by simp [hasFormatLength, Opcode.code]⟩
  | drawText =>
    match operands with
    | [] | [_] | [_, _] => exact .inr ⟨rfl, by simp [hasFormatLength, Opcode.code]⟩
    | row :: column :: n :: chars =>
      have hlength : hasFormatLength Opcode.drawText.code.toNat (b :: row :: column :: n :: chars) ↔ chars.length = n.toNat := by
        simp only [hasFormatLength, Opcode.code, List.length_cons]
        change _ ∧ _ = 4 + n.toNat ↔ _
        omega
      rw [hlength]
      by_cases hn : chars.length = n.toNat
      · exact .inl ⟨_, if_pos hn, hn⟩
      · exact .inr ⟨if_neg hn, hn⟩

/-! ### The first test that rejects a packet -/

theorem testNumber_injective : Function.Injective testNumber := by
  intro d e; cases d <;> cases e <;> decide

/-- No test with a number below `n` rejects the packet. -/
def PassesBefore (p : Packet) (n : Nat) : Prop := ∀ d, testNumber d < n → ¬ failsTest p d

theorem passesBefore_one (p : Packet) : PassesBefore p 1 :=
  fun d h => absurd h (by cases d <;> decide)

theorem PassesBefore.succ {p : Packet} {e : DecodeError} (h : PassesBefore p (testNumber e)) (he : ¬ failsTest p e) :
    PassesBefore p (testNumber e + 1) := by
  intro d hd
  obtain hlt | heq := Nat.lt_succ_iff_lt_or_eq.1 hd
  · exact h d hlt
  · rwa [testNumber_injective heq]

theorem PassesBefore.passesAll {p : Packet} (h : PassesBefore p 7) (e : DecodeError) : ¬ failsTest p e :=
  h e (by cases e <;> decide)

/-- `e` is the first of the tests that reject the packet. -/
def FirstFailure (p : Packet) (e : DecodeError) : Prop := failsTest p e ∧ PassesBefore p (testNumber e)

theorem FirstFailure.unique {p : Packet} {d e : DecodeError} (hd : FirstFailure p d) (he : FirstFailure p e) : d = e :=
  testNumber_injective
    (le_antisymm (not_lt.1 fun h => hd.2 e h he.1) (not_lt.1 fun h => he.2 d h hd.1))

/-- The tests on the opcode byte: it is one of a command and passes them all, or the first that rejects it names the error. -/
theorem opcodeByte_cases (b : Byte) (operands : List Byte) :
    (∃ op, OpcodeByteOf b op ∧ PassesBefore (b :: operands) (testNumber .wrongLength)) ∨
    ∃ e, decode (b :: operands) = .error e ∧ FirstFailure (b :: operands) e := by
  have pass₂ := (passesBefore_one (b :: operands)).succ (e := .noOpcodeByte) not_failsTest_noOpcodeByte
  cases hop : opcodeOf (opcField b) with
  | none => exact .inr ⟨.reservedOpcode, by simp [decode, hop], failsTest_reservedOpcode_iff.2 hop, pass₂⟩
  | some op =>
    have pass₃ := pass₂.succ (e := .reservedOpcode) (by simp [failsTest_reservedOpcode_iff, hop])
    by_cases hr : failsTest (b :: operands) .reservedBits
    · exact .inr ⟨.reservedBits, by simp only [decode, hop, if_pos (failsTest_reservedBits_iff.1 hr)], hr, pass₃⟩
    have pass₄ := pass₃.succ (e := .reservedBits) hr
    rw [failsTest_reservedBits_iff, not_not] at hr
    by_cases hf : failsTest (b :: operands) .filledFlag
    · exact .inr ⟨.filledFlag, by simp [decode, hop, hr, (failsTest_filledFlag_iff hop).1 hf], hf, pass₄⟩
    have pass₅ := pass₄.succ (e := .filledFlag) hf
    rw [failsTest_filledFlag_iff hop] at hf
    by_cases ho : failsTest (b :: operands) .onFlag
    · exact .inr ⟨.onFlag, by simp [decode, hop, hr, hf, (failsTest_onFlag_iff hop).1 ho], ho, pass₅⟩
    have pass₆ := pass₅.succ (e := .onFlag) ho
    rw [failsTest_onFlag_iff hop] at ho
    exact .inl ⟨op, ⟨hop, hr, by simpa using hf, by simpa using ho⟩, pass₆⟩

/-- Either no test rejects the packet and it decodes, or it is rejected under the name of the first test that does. -/
theorem decode_cases (p : Packet) :
    (∃ i, decode p = .ok i ∧ ∀ e, ¬ failsTest p e) ∨ ∃ e, decode p = .error e ∧ FirstFailure p e := by
  cases p with
  | nil => exact .inr ⟨.noOpcodeByte, rfl, rfl, passesBefore_one []⟩
  | cons b operands =>
    obtain ⟨op, hb, hpass⟩ | herror := opcodeByte_cases b operands
    · have hlength := failsTest_wrongLength_iff (operands := operands) hb.opcode
      obtain ⟨i, hi, hl⟩ | ⟨he, hl⟩ := decodeOperands_cases op (filledField b) (onField b) b operands
      · have hpassLength : ¬ failsTest (b :: operands) .wrongLength := fun h => hlength.1 h hl
        exact .inl ⟨i, (hb.decode_cons operands).trans hi, (hpass.succ hpassLength).passesAll⟩
      · exact .inr ⟨.wrongLength, (hb.decode_cons operands).trans he, hlength.2 hl, hpass⟩
    · exact .inr herror

theorem decode_eq_error_iff (p : Packet) (e : DecodeError) : decode p = .error e ↔ FirstFailure p e := by
  obtain ⟨i, hi, hpass⟩ | ⟨d, hd, hfirst⟩ := decode_cases p
  · rw [hi]
    exact ⟨nofun, fun h => absurd h.1 (hpass e)⟩
  · rw [hd]
    exact ⟨fun h => Except.error.inj h ▸ hfirst, fun h => congrArg Except.error (hfirst.unique h)⟩

/-- A packet that any test rejects is rejected. -/
theorem exists_decode_eq_error {p : Packet} {e : DecodeError} (h : failsTest p e) : ∃ d, decode p = .error d := by
  obtain ⟨_, -, hpass⟩ | ⟨d, hd, -⟩ := decode_cases p
  · exact absurd h (hpass e)
  · exact ⟨d, hd⟩

/-- Settles O4: the decoder names the first test that rejects, and a step on a rejected packet raises IllegalCommand in IDLE. -/
theorem illegalPacketsInTestOrder : Obligations.IllegalPacketsInTestOrder := by
  unfold Obligations.IllegalPacketsInTestOrder
  refine ⟨decode_eq_error_iff, fun s p rest e hidle hc hfails => ?_⟩
  obtain ⟨d, hd⟩ := exists_decode_eq_error hfails
  rw [step_of_packet hidle hc, hd]
  simp only [raise, ← hidle]

end Sys2Proof.Machine
end

section
/-! Responses: their packets, and that each command gives exactly one, as it returns to IDLE (30_encoding.md R90;
40_framebuffer_ops.md R110). -/

namespace Sys2Proof.Machine

/-- Settles O5: one case of `Response.packet` each. -/
theorem responsePackets : Obligations.ResponsePackets := by
  unfold Obligations.ResponsePackets
  exact ⟨rfl, fun _ => rfl, rfl, fun _ => rfl, rfl⟩

/-- From `s` to `t` one response is given if `t` is in IDLE, and none elsewhere. -/
def RespondsInIdle (s t : State) : Prop :=
  if t.st = .idle then ∃ r, t.responses = s.responses ++ [r] else t.responses = s.responses

theorem RespondsInIdle.of_response {s t : State} (r : Response) (hst : t.st = .idle) (h : t.responses = s.responses ++ [r]) :
    RespondsInIdle s t := by
  rw [RespondsInIdle, if_pos hst]
  exact ⟨r, h⟩

theorem RespondsInIdle.of_none {s t : State} (hst : t.st ≠ .idle) (h : t.responses = s.responses) : RespondsInIdle s t := by
  rwa [RespondsInIdle, if_neg hst]

/-- A command is over with its one response, unless it leaves IDLE for a transaction. -/
theorem exec_respondsInIdle {i : Instr} {s t : State} (h : exec i s = .next t) : RespondsInIdle s t := by
  obtain ⟨-, hs⟩ | ⟨-, hs⟩ | ⟨fb', r, he⟩ := exec_cases i s
  · obtain rfl := Host.Outcome.next.inj (hs.symm.trans h)
    exact .of_none nofun rfl
  · obtain rfl := Host.Outcome.next.inj (hs.symm.trans h)
    exact .of_none nofun rfl
  · obtain rfl := Host.Outcome.next.inj ((he.outcome s rfl).symm.trans h)
    exact .of_response r rfl rfl

/-- The sequencer responds at the answer that ends the command, and goes back to IDLE nowhere else. -/
theorem sequencerStep_respondsInIdle {s t : State} (hbusy : s.st ≠ .idle) (h : sequencerStep s = .next t) :
    RespondsInIdle s t := by
  cases hst : s.st <;> simp only [sequencerStep, hst] at h
  case idle => exact absurd hst hbusy
  case iCmds =>
    obtain ⟨hk, rfl⟩ | ⟨-, rfl⟩ := initCmds_cases h
    · exact .of_none hbusy rfl
    · exact .of_none nofun rfl
  case rPageCmd =>
    obtain ⟨-, rfl⟩ := refreshPageCmd_cases h
    exact .of_none nofun rfl
  case rData =>
    obtain ⟨-, rfl⟩ | ⟨-, rfl⟩ := refreshData_cases h
    · exact .of_none hbusy rfl
    · exact .of_none nofun rfl
  case iExec =>
    obtain rfl := Host.Outcome.next.inj h
    obtain ⟨-, ht⟩ | ⟨e, -, ht⟩ := initExec_cases s <;> rw [ht]
    · exact .of_response (.ok none) rfl (by simp)
    · exact .of_response (.error (.transportError e)) rfl (by simp [raiseTransport])
  case rExec =>
    obtain ⟨-, -, rfl⟩ | ⟨-, -, rfl⟩ | ⟨e, -, rfl⟩ := refreshExec_cases h
    · exact .of_none nofun (by simp)
    · exact .of_response (.ok none) rfl (by simp)
    · exact .of_response (.error (.transportError e)) rfl (by simp [raiseTransport])
  all_goals
    obtain rfl := Host.Outcome.next.inj h
    exact .of_none nofun rfl

/-- Settles O10: a step that waits gives no response, every other one as `RespondsInIdle` says. -/
theorem oneResponsePerCommand : Obligations.OneResponsePerCommand := by
  unfold Obligations.OneResponsePerCommand
  intro s t h
  obtain ⟨hi, hc, hs⟩ | ⟨p, rest, e, -, hc, -, hs⟩ | ⟨p, rest, i, -, hc, -, hs⟩ | ⟨hbusy, hs⟩ := step_cases s <;>
    rw [hs] at h
  · obtain rfl := Host.Outcome.next.inj h
    simp [hi, hc]
  · obtain rfl := Host.Outcome.next.inj h
    simp [hc]
  · simpa [hc, RespondsInIdle] using exec_respondsInIdle h
  · simpa [hbusy, RespondsInIdle] using sequencerStep_respondsInIdle hbusy h

end Sys2Proof.Machine
end

section
/-! The wire transactions (30_encoding.md R92 to R94): the shape of PAGE_TXN, what it tells of its page, and what tells it from
INIT_TXN. -/

namespace Sys2Proof.Machine

/-! ### The parameters (30_encoding.md R94) -/

/-- A page index is a byte, so distinct pages are distinct arguments of the permutation behind `PAGE_CMD`. -/
theorem pageCmd_inj {p q : Nat} (hp : p < Config.pageCount) (hq : q < Config.pageCount)
    (h : Config.pageCmd p = Config.pageCmd q) : p = q := by
  have hbytes : BitVec.ofNat 8 p = BitVec.ofNat 8 q := Config.pageCmdPerm.injective h
  rw [pageCount_eq] at hp hq
  have hnat := congrArg BitVec.toNat hbytes
  simp only [BitVec.toNat_ofNat] at hnat
  omega

theorem markerCmdStream_ne_markerCmdSingle : Config.markerCmdStream ≠ Config.markerCmdSingle :=
  Config.markerPerm.injective.ne (by decide)

theorem markerCmdStream_ne_markerData : Config.markerCmdStream ≠ Config.markerData :=
  Config.markerPerm.injective.ne (by decide)

theorem markerCmdSingle_ne_markerData : Config.markerCmdSingle ≠ Config.markerData :=
  Config.markerPerm.injective.ne (by decide)

/-! ### PAGE_TXN (30_encoding.md R92) -/

theorem length_pageHeader (p : Nat) : (pageHeader p).length = 4 := rfl

theorem length_pageTxn (fb : Memory) (p : Nat) : (pageTxn fb p).length = Config.width + 4 := by
  rw [pageTxn, List.length_append, length_pageHeader, length_pageData, Nat.add_comm]

theorem take_pageTxn (fb : Memory) (p : Nat) : (pageTxn fb p).take 4 = pageHeader p :=
  List.take_left' (length_pageHeader p)

theorem getElem?_pageTxn (fb : Memory) (p : Nat) {c : Nat} (hc : c < Config.width) :
    (pageTxn fb p)[4 + c]? = some (fb.read (cellIndex p c)) := by
  rw [pageTxn, ← length_pageHeader p, List.getElem?_append_right (Nat.le_add_right _ _), Nat.add_sub_cancel_left]
  simp [pageData, hc]

theorem pageHeader_inj {p q : Nat} (hp : p < Config.pageCount) (hq : q < Config.pageCount)
    (h : pageHeader p = pageHeader q) : p = q := by
  simp only [pageHeader, List.cons.injEq] at h
  obtain ⟨-, -, hcmd, -⟩ := h
  exact pageCmd_inj hp hq hcmd

/-- Settles O36: the header gives the page, the byte at `4 + c` the cell. -/
theorem pageTransactionShape : Obligations.PageTransactionShape := by
  unfold Obligations.PageTransactionShape
  refine ⟨length_pageTxn, take_pageTxn, fun fb p c => getElem?_pageTxn fb p, fun fb fb' p q hp hq h => ?_⟩
  have hheader : pageHeader p = pageHeader q := by rw [← take_pageTxn fb p, h, take_pageTxn]
  obtain rfl := pageHeader_inj hp hq hheader
  refine ⟨rfl, fun c hc => Option.some.inj ?_⟩
  rw [← getElem?_pageTxn fb p hc, h, getElem?_pageTxn fb' p hc]

/-! ### INIT_TXN is no PAGE_TXN (30_encoding.md R93, R94) -/

/-- The bytes after the address byte are different markers. -/
theorem pageTxn_ne_initTxn (fb : Memory) (p : Nat) : pageTxn fb p ≠ initTxn := by
  intro h
  have hmarker : some Config.markerCmdSingle = some Config.markerCmdStream := congrArg (fun bytes : List Byte => bytes[1]?) h
  exact markerCmdStream_ne_markerCmdSingle (Option.some.inj hmarker).symm

/-- Settles O51: the markers are images of distinct bytes under a permutation, and so are the page commands. -/
theorem markersTellTransactionsApart : Obligations.MarkersTellTransactionsApart := by
  unfold Obligations.MarkersTellTransactionsApart
  refine ⟨⟨?_, ?_, ?_⟩, fun p q => pageCmd_inj, pageTxn_ne_initTxn⟩
  · exact markerCmdStream_ne_markerCmdSingle
  · exact markerCmdStream_ne_markerData
  · exact markerCmdSingle_ne_markerData

end Sys2Proof.Machine
end

section
/-! CLEAR, DRAW_PIXEL and READ_CELL (40_framebuffer_ops.md): the step that runs a command (R110), the outcome of each on every
path (R111 to R114), and what leaves the ghost display as it is (R111). -/

namespace Sys2Proof.Machine

/-- Settles O6: what `step_of_packet` says of a packet that decodes. -/
theorem stepRunsTheDecodedCommand : Obligations.StepRunsTheDecodedCommand := by
  unfold Obligations.StepRunsTheDecodedCommand
  intro s p rest i hidle hc hd
  rw [step_of_packet hidle hc, hd]

/-! ### CLEAR (R111) -/

/-- Settles O15: FB becomes `clearCells`, which reads 0 in range and of a canonical FB lists nothing. -/
theorem clearZeroesEveryCell : Obligations.ClearZeroesEveryCell := by
  unfold Obligations.ClearZeroesEveryCell
  refine ⟨decode_of_encode_eq (i := .clear) rfl rfl, fun s => ⟨clearCells s.fb, ?_, ?_, clearCells_eq_nil⟩⟩
  · exact (execClear_effect s.fb).outcome s rfl
  · exact fun p c => read_clearCells s.fb

/-! ### DRAW_PIXEL (R112, R113) -/

theorem encode_drawPixel (x y : Byte) (on : Bool) :
    encode (.drawPixel x.toNat y.toNat on) = [if on then 0x31 else 0x30, x, y] := by
  have hop : opcodeByte 3 false on = if on then 0x31 else 0x30 := by cases on <;> decide
  rw [encode, hop, operandByte_of_toNat, operandByte_of_toNat]

theorem wellFormed_drawPixel (x y : Byte) (on : Bool) : (Instr.drawPixel x.toNat y.toNat on).wellFormed = true := by
  rw [Instr.wellFormed, operandFits_toNat, operandFits_toNat, Bool.and_self]

/-- The framebuffer that DRAW_PIXEL of a pixel in range makes. -/
def pixelWritten (fb : Memory) (x y : Nat) (on : Bool) : Memory :=
  fb.write (cellIndex (y / 8) x) (setBit (fb.read (cellIndex (y / 8) x)) (y % 8) on)

theorem read_pixelWritten_same (fb : Memory) (x y : Nat) (on : Bool) :
    (pixelWritten fb x y on).read (cellIndex (y / 8) x) = setBit (fb.read (cellIndex (y / 8) x)) (y % 8) on :=
  Memory.read_write_same _ _ _

theorem read_pixelWritten_other (fb : Memory) {x y : Nat} (on : Bool) {a : Nat} (ha : a ≠ cellIndex (y / 8) x) :
    (pixelWritten fb x y on).read a = fb.read a :=
  Memory.read_write_other _ _ _ _ ha.symm

theorem execDrawPixel_of_inRange {x y : Nat} (h : InRangePixel x y) (on : Bool) (s : State) :
    execDrawPixel x y on s = .next (respond none { s with fb := pixelWritten s.fb x y on }) := by
  obtain ⟨hcell, hbit⟩ := pad_inRange h
  have hset : setPixel s.fb x y on = .next (pixelWritten s.fb x y on) := fbSetBit_of_inRange hcell hbit
  rw [execDrawPixel, if_pos h, hset]
  rfl

theorem execDrawPixel_of_not_inRange {x y : Nat} (h : ¬ InRangePixel x y) (on : Bool) (s : State) :
    execDrawPixel x y on s = .next (raise .coordinateOutOfRange s) :=
  if_neg h

/-- Settles O16: in range FB becomes `pixelWritten`, whose one changed cell has the bit `y % 8` set to `on`. -/
theorem drawPixelSetsOneBit : Obligations.DrawPixelSetsOneBit := by
  unfold Obligations.DrawPixelSetsOneBit
  refine ⟨fun x y on => decode_of_encode_eq (encode_drawPixel x y on) (wellFormed_drawPixel x y on), fun s x y on => ?_⟩
  refine ⟨fun h => ⟨pixelWritten s.fb x y on, execDrawPixel_of_inRange h on s, ?byte, ?bit, ?otherBits, ?otherCells⟩,
    fun h => execDrawPixel_of_not_inRange h on s⟩
  case byte => exact read_pixelWritten_same s.fb x y on
  case bit => rw [read_pixelWritten_same, getLsbD_setBit _ _ _ _ (Nat.mod_lt y (by decide)), if_pos rfl]
  case otherBits =>
    intro b hb hne
    rw [read_pixelWritten_same, getLsbD_setBit _ _ _ _ hb, if_neg hne]
  case otherCells => exact fun a => read_pixelWritten_other s.fb on

/-! ### READ_CELL (R114) -/

theorem encode_readCell (p c : Byte) : encode (.readCell p.toNat c.toNat) = [0x80, p, c] := by
  have hop : opcodeByte 8 false false = 0x80 := by decide
  rw [encode, hop, operandByte_of_toNat, operandByte_of_toNat]

theorem wellFormed_readCell (p c : Byte) : (Instr.readCell p.toNat c.toNat).wellFormed = true := by
  rw [Instr.wellFormed, operandFits_toNat, operandFits_toNat, Bool.and_self]

theorem execReadCell_of_inRange {p c : Nat} (h : InRangeCell p c) (s : State) :
    execReadCell p c s = .next (respond (some (cell s p c)) s) := by
  rw [execReadCell, if_pos h, fbRead_of_inRange h, andThen_next, cell]

theorem execReadCell_of_not_inRange {p c : Nat} (h : ¬ InRangeCell p c) (s : State) :
    execReadCell p c s = .next (raise .coordinateOutOfRange s) :=
  if_neg h

/-- Settles O17: the port answers the cell in range, and out of range the port is not used. -/
theorem readCellRespondsTheCell : Obligations.ReadCellRespondsTheCell := by
  unfold Obligations.ReadCellRespondsTheCell
  refine ⟨fun p c => decode_of_encode_eq (encode_readCell p c) (wellFormed_readCell p c), fun s p c => ?_⟩
  exact ⟨fun h => execReadCell_of_inRange h s, fun h => execReadCell_of_not_inRange h s⟩

/-! ### The ghost display and the boot order (10_state.md R33, log 13) -/

/-- From `s` to `t` the display and the boot order stay as they are. -/
def DisplayKept (s t : State) : Prop := t.disp = s.disp ∧ t.boot = s.boot

/-- No command is itself an answer of the Bus Transport. -/
theorem exec_displayKept {i : Instr} {s t : State} (h : exec i s = .next t) : DisplayKept s t := by
  obtain ⟨-, hs⟩ | ⟨-, hs⟩ | ⟨fb', r, he⟩ := exec_cases i s
  · obtain rfl := Host.Outcome.next.inj (hs.symm.trans h)
    exact ⟨rfl, rfl⟩
  · obtain rfl := Host.Outcome.next.inj (hs.symm.trans h)
    exact ⟨rfl, rfl⟩
  · obtain rfl := Host.Outcome.next.inj ((he.outcome s rfl).symm.trans h)
    exact ⟨rfl, rfl⟩

/-- No row of the sequencer but those of an answer moves the display. -/
theorem sequencerStep_displayKept {s t : State} (hi : s.st ≠ .iExec) (hr : s.st ≠ .rExec)
    (h : sequencerStep s = .next t) : DisplayKept s t := by
  cases hst : s.st <;> simp only [sequencerStep, hst] at h
  case iExec => exact absurd hst hi
  case rExec => exact absurd hst hr
  case iCmds => obtain ⟨-, rfl⟩ | ⟨-, rfl⟩ := initCmds_cases h <;> exact ⟨rfl, rfl⟩
  case rPageCmd => obtain ⟨-, rfl⟩ := refreshPageCmd_cases h; exact ⟨rfl, rfl⟩
  case rData => obtain ⟨-, rfl⟩ | ⟨-, rfl⟩ := refreshData_cases h <;> exact ⟨rfl, rfl⟩
  all_goals obtain rfl := Host.Outcome.next.inj h; exact ⟨rfl, rfl⟩

theorem step_displayKept {s t : State} (hi : s.st ≠ .iExec) (hr : s.st ≠ .rExec) (h : step s = .next t) :
    DisplayKept s t := by
  obtain ⟨-, -, hs⟩ | ⟨p, rest, e, -, -, -, hs⟩ | ⟨p, rest, i, -, -, -, hs⟩ | ⟨-, hs⟩ := step_cases s <;>
    rw [hs] at h
  · obtain rfl := Host.Outcome.next.inj h
    exact ⟨rfl, rfl⟩
  · obtain rfl := Host.Outcome.next.inj h
    exact ⟨rfl, rfl⟩
  · exact exec_displayKept (s := { s with commands := rest }) h
  · exact sequencerStep_displayKept hi hr h

theorem initExec_boot (s : State) : (initExec s).boot = bootAfterInit s.boot (nextAnswer s) := by
  obtain ⟨ha, ht⟩ | ⟨e, ha, ht⟩ := initExec_cases s <;> simp [ht, ha, raiseTransport]

theorem refreshExec_boot {s t : State} (h : refreshExec s = .next t) : t.boot = bootAfterPage s.boot := by
  obtain ⟨-, -, rfl⟩ | ⟨-, -, rfl⟩ | ⟨e, -, rfl⟩ := refreshExec_cases h <;> simp [raiseTransport]

theorem step_iExec_boot {s t : State} (hst : s.st = .iExec) (h : step s = .next t) :
    t.boot = bootAfterInit s.boot (nextAnswer s) := by
  obtain rfl := Host.Outcome.next.inj ((step_iExec hst).symm.trans h)
  exact initExec_boot s

theorem step_rExec_boot {s t : State} (hst : s.st = .rExec) (h : step s = .next t) : t.boot = bootAfterPage s.boot :=
  refreshExec_boot ((step_rExec hst).symm.trans h)

theorem bootAfterInit_fresh_of_ne_ok {a : BusAnswer} (ha : a ≠ .ok) : bootAfterInit .fresh a = .fresh := by
  cases a with
  | ok => exact absurd rfl ha
  | err e => rfl

theorem bootAfterInit_of_ne_fresh {b : BootOrder} (hb : b ≠ .fresh) (a : BusAnswer) : bootAfterInit b a = .broken := by
  cases b with
  | fresh => exact absurd rfl hb
  | kept | broken => rfl

theorem bootAfterPage_of_ne_kept {b : BootOrder} (hb : b ≠ .kept) : bootAfterPage b = .broken := by
  cases b with
  | kept => exact absurd rfl hb
  | fresh | broken => rfl

/-- Settles O48: elsewhere `step_displayKept`; an answer moves the boot order by `bootAfterInit` or `bootAfterPage`. -/
theorem displayChangesOnlyAtAnAnswer : Obligations.DisplayChangesOnlyAtAnAnswer := by
  unfold Obligations.DisplayChangesOnlyAtAnAnswer
  intro s t h
  refine ⟨fun hi hr => step_displayKept hi hr h, ?initOk, ?initErr, ?initLate, ?pageKept, ?pageEarly⟩
  case initOk =>
    intro hst hboot hok
    rw [step_iExec_boot hst h, hboot, hok]
    rfl
  case initErr =>
    intro hst hboot herr
    rw [step_iExec_boot hst h, hboot, bootAfterInit_fresh_of_ne_ok herr]
  case initLate =>
    intro hst hboot
    rw [step_iExec_boot hst h, bootAfterInit_of_ne_fresh hboot]
  case pageKept =>
    intro hst hboot
    rw [step_rExec_boot hst h, hboot]
    rfl
  case pageEarly =>
    intro hst hboot
    rw [step_rExec_boot hst h, bootAfterPage_of_ne_kept hboot]

end Sys2Proof.Machine
end

section
/-! DRAW_HLINE, DRAW_RECT and DRAW_TEXT (41_drawing_engine.md): the set of pixels or cells each addresses, given by its offsets
(R131, R133, R140), what drawing such a set leaves, and the consequences for single pictures (R134, R141). -/

namespace Sys2Proof.Machine

/-! ### Sets of pixels (41_drawing_engine.md R130) -/

/-- From `fb` to `fb'` the pixels of the set come to equal `on`, no other pixel changes, and no cell without a pixel of the set. -/
structure PixelsDrawn (pixels : List (Nat × Nat)) (on : Bool) (fb fb' : Memory) : Prop where
  pixelAt_eq : ∀ u v, InRangePixel u v → pixelAt fb' u v = if (u, v) ∈ pixels then on else pixelAt fb u v
  read_eq : ∀ a, (∀ q ∈ pixels, a ≠ cellIndex (q.2 / 8) q.1) → fb'.read a = fb.read a

/-- After setting a set of pixels, a pixel that was off is on exactly when it belongs to the set. -/
theorem PixelsDrawn.pixelAt_of_off {pixels : List (Nat × Nat)} {fb fb' : Memory} (h : PixelsDrawn pixels true fb fb')
    {u v : Nat} (huv : InRangePixel u v) (hoff : pixelAt fb u v = false) : pixelAt fb' u v = decide ((u, v) ∈ pixels) := by
  rw [h.pixelAt_eq u v huv, hoff]
  by_cases hmem : (u, v) ∈ pixels
  · rw [if_pos hmem, decide_eq_true hmem]
  · rw [if_neg hmem, decide_eq_false hmem]

/-- A set in range is drawn, and nothing but FB, ST and the responses changes. -/
theorem drawPixels_next_of_inRange {pixels : List (Nat × Nat)} (h : AllInRangePixel pixels) (on : Bool) (s : State) :
    ∃ fb', drawPixels pixels on s = .next (respond none { s with fb := fb' }) ∧ PixelsDrawn pixels on s.fb fb' := by
  obtain ⟨fb', hset, hpixel, hframe, -⟩ := setPixels_spec (fb := s.fb) (on := on) h
  refine ⟨fb', ?_, hpixel, hframe⟩
  rw [drawPixels_of_inRange h, finishWith, hset, andThen_next]

/-! ### DRAW_HLINE (41_drawing_engine.md R131) -/

theorem encode_drawHline (x y n : Byte) (on : Bool) :
    encode (.drawHline x.toNat y.toNat n.toNat on) = [if on then 0x41 else 0x40, x, y, n] := by
  have hop : opcodeByte 4 false on = if on then 0x41 else 0x40 := by cases on <;> decide
  simp only [encode, hop, operandByte_of_toNat]

theorem wellFormed_drawHline (x y n : Byte) (on : Bool) :
    (Instr.drawHline x.toNat y.toNat n.toNat on).wellFormed = true := by
  simp only [Instr.wellFormed, operandFits_toNat, Bool.and_self]

theorem forall_mem_hlinePixels {x y length : Nat} {P : Nat × Nat → Prop} :
    (∀ q ∈ hlinePixels x y length, P q) ↔ ∀ i, i < length → P (x + i, y) := by
  simp only [hlinePixels, List.forall_mem_map, List.mem_range]

/-- Settles O18: what drawing the pixels `(x + i, y)` leaves; a pixel is one of them when its row is `y` and its column fits. -/
theorem drawHlineSetsItsPixels : Obligations.DrawHlineSetsItsPixels := by
  unfold Obligations.DrawHlineSetsItsPixels
  refine ⟨fun x y n on => decode_of_encode_eq (encode_drawHline x y n on) (wellFormed_drawHline x y n on), ?_⟩
  intro s x y length on
  obtain ⟨hline, -⟩ := allOrNothing s
  refine ⟨fun h => ?_, hline x y length on⟩
  obtain ⟨fb', hnext, hdrawn⟩ := drawPixels_next_of_inRange (forall_mem_hlinePixels.2 h) on s
  refine ⟨fb', hnext, fun u v huv => ?pixel, fun a ha => ?frame⟩
  case pixel => exact (hdrawn.pixelAt_eq u v huv).trans (if_congr mem_hlinePixels rfl rfl)
  case frame =>
    exact hdrawn.read_eq a (forall_mem_hlinePixels.2 fun i hi => ha (x + i) (Nat.le_add_right x i) (Nat.add_lt_add_left hi x))

theorem pixelAt_of_read_eq_zero {fb : Memory} {p c b : Nat} (hb : b < 8) (h : fb.read (cellIndex p c) = 0) :
    pixelAt fb c (8 * p + b) = false := by
  rw [pixelAt_pixelOf _ _ _ _ hb, h, BitVec.ofNat_eq_ofNat, BitVec.getLsbD_zero]

/-- A bit of a cell is on the line across the whole width when its row is the line's. -/
theorem mem_fullWidthLine {p c b y : Nat} (h : InRangeCell p c) :
    (c, 8 * p + b) ∈ hlinePixels 0 y Config.width ↔ 8 * p + b = y := by
  rw [mem_hlinePixels, Nat.zero_add]
  exact and_iff_left ⟨Nat.zero_le c, h.2⟩

/-- Settles O19: row 10 is bit 2 of page 1, so on a clear FB the cells of page 1 come to hold the mask of bit 2. -/
theorem fullWidthLineFillsOnePage : Obligations.FullWidthLineFillsOnePage := by
  unfold Obligations.FullWidthLineFillsOnePage
  intro s hclear
  have hrange : AllInRangePixel (hlinePixels 0 10 Config.width) := allInRangePixel_hline.2 (.inr (by decide))
  obtain ⟨fb', hnext, hdrawn⟩ := drawPixels_next_of_inRange hrange true s
  refine ⟨_, hnext, fun p c hpc => BitVec.eq_of_getLsbD_eq fun b hb => ?_⟩
  have hbit : (fb'.read (cellIndex p c)).getLsbD b = decide (8 * p + b = 10) := by
    rw [← pixelAt_pixelOf fb' p c b hb, decide_eq_decide.2 (mem_fullWidthLine hpc).symm]
    exact hdrawn.pixelAt_of_off (pixelOf_inRange hpc hb) (pixelAt_of_read_eq_zero hb (hclear p c hpc))
  refine hbit.trans ?_
  by_cases hp : p = 1
  · have hmask : (0x04 : Byte) = bitMask 2 := by decide
    rw [if_pos hp, hmask, getLsbD_bitMask 2 b hb, decide_eq_decide]
    omega
  · rw [if_neg hp, BitVec.ofNat_eq_ofNat, BitVec.getLsbD_zero, decide_eq_false_iff_not]
    omega

/-! ### DRAW_RECT (41_drawing_engine.md R133) -/

theorem encode_drawRect (x y w h : Byte) (on filled : Bool) :
    encode (.drawRect x.toNat y.toNat w.toNat h.toNat on filled) =
      [if filled then (if on then 0x53 else 0x52) else (if on then 0x51 else 0x50), x, y, w, h] := by
  have hop : opcodeByte 5 filled on = if filled then (if on then 0x53 else 0x52) else (if on then 0x51 else 0x50) := by
    cases filled <;> cases on <;> decide
  simp only [encode, hop, operandByte_of_toNat]

theorem wellFormed_drawRect (x y w h : Byte) (on filled : Bool) :
    (Instr.drawRect x.toNat y.toNat w.toNat h.toNat on filled).wellFormed = true := by
  simp only [Instr.wellFormed, operandFits_toNat, Bool.and_self]

theorem forall_mem_rectPixels {x y width height : Nat} {filled : Bool} {P : Nat × Nat → Prop} :
    (∀ q ∈ rectPixels x y width height filled, P q) ↔
      ∀ i j, i < width → j < height → (filled = true ∨ i = 0 ∨ i + 1 = width ∨ j = 0 ∨ j + 1 = height) → P (x + i, y + j) := by
  simp only [rectPixels, onBoundary, List.forall_mem_flatMap, List.forall_mem_map, List.mem_filter, List.mem_range,
    Bool.or_eq_true, beq_iff_eq, or_assoc]
  exact ⟨fun h i j hi hj hside => h j hj i ⟨hi, hside⟩, fun h j hj i hi => h i j hi.1 hj hi.2⟩

/-- Settles O20: what drawing the pixels `(x + i, y + j)` of the region, or of its boundary, leaves. -/
theorem drawRectSetsItsPixels : Obligations.DrawRectSetsItsPixels := by
  unfold Obligations.DrawRectSetsItsPixels
  refine ⟨fun x y w h on filled =>
    decode_of_encode_eq (encode_drawRect x y w h on filled) (wellFormed_drawRect x y w h on filled), ?_⟩
  intro s x y width height on filled
  obtain ⟨-, rect, -⟩ := allOrNothing s
  refine ⟨fun h => ?_, rect x y width height on filled⟩
  have hrange : AllInRangePixel (rectPixels x y width height filled) := forall_mem_rectPixels.2 h
  obtain ⟨fb', hnext, hdrawn⟩ := drawPixels_next_of_inRange hrange on s
  refine ⟨fb', hnext, ?inside, ?outside, fun a ha => hdrawn.read_eq a (forall_mem_rectPixels.2 ha)⟩
  case inside =>
    have hon : ∀ q ∈ rectPixels x y width height filled, pixelAt fb' q.1 q.2 = on := fun q hq => by
      rw [hdrawn.pixelAt_eq q.1 q.2 (hrange q hq), if_pos hq]
    exact forall_mem_rectPixels.1 hon
  case outside =>
    intro u v huv hne
    have hnot : (u, v) ∉ rectPixels x y width height filled := fun hmem => forall_mem_rectPixels.2 hne (u, v) hmem rfl
    rw [hdrawn.pixelAt_eq u v huv, if_neg hnot]

/-! ### Thin rectangles (41_drawing_engine.md R133, 30_encoding.md R88) -/

/-- Every offset of a region at most two pixels wide or high is on its boundary. -/
theorem onBoundary_of_thin {width height i j : Nat} (hthin : width ≤ 2 ∨ height ≤ 2) (hi : i < width) (hj : j < height) :
    onBoundary width height i j = true := by
  simp only [onBoundary, Bool.or_eq_true, beq_iff_eq]
  omega

theorem rectPixels_of_thin {width height : Nat} (hthin : width ≤ 2 ∨ height ≤ 2) (x y : Nat) (filled : Bool) :
    rectPixels x y width height filled = rectPixels x y width height true := by
  refine List.flatMap_congr fun j hj => congrArg (List.map _) (List.filter_congr fun i hi => ?_)
  rw [onBoundary_of_thin hthin (List.mem_range.1 hi) (List.mem_range.1 hj), Bool.or_true, Bool.true_or]

theorem rectPixels_height_one (x y length : Nat) : rectPixels x y length 1 true = hlinePixels x y length := by
  simp [rectPixels, hlinePixels]

/-- Settles O22: both commands draw the same list of pixels. -/
theorem thinRectangles : Obligations.ThinRectangles := by
  unfold Obligations.ThinRectangles
  refine ⟨fun s x y w h on hthin => ?_, fun s x y length on filled => ?_⟩
  · exact congrArg (drawPixels · on s) (rectPixels_of_thin hthin x y false)
  · have hpixels := (rectPixels_of_thin (.inr (by decide)) x y filled).trans (rectPixels_height_one x y length)
    exact congrArg (drawPixels · on s) hpixels

/-! ### Counting pixels (41_drawing_engine.md R134) -/

/-- The pixels that are on, as a set. -/
def litPixels (s : State) : Finset (Nat × Nat) :=
  (Finset.range Config.width ×ˢ Finset.range Config.height).filter fun q => pixel s q.1 q.2

theorem mem_litPixels {s : State} {q : Nat × Nat} : q ∈ litPixels s ↔ InRangePixel q.1 q.2 ∧ pixel s q.1 q.2 = true := by
  simp only [litPixels, Finset.mem_filter, Finset.mem_product, Finset.mem_range]

theorem length_filter_range (p : Nat → Bool) (n : Nat) :
    ((List.range n).filter p).length = ((Finset.range n).filter fun i => p i = true).card := by
  rw [← List.toFinset_card_of_nodup (List.nodup_range.filter p), List.toFinset_filter, List.toFinset_range]

theorem pixelsOn_eq_card (s : State) : pixelsOn s = (litPixels s).card := by
  rw [litPixels, Finset.card_filter, Finset.sum_product_right]
  simp only [← Finset.card_filter, pixelsOn, length_filter_range]
  rw [← List.sum_toFinset _ List.nodup_range, List.toFinset_range]

/-- On a clear FB exactly the pixels of the set are on afterwards. -/
theorem litPixels_of_drawn {pixels : List (Nat × Nat)} {s t : State} (hrange : AllInRangePixel pixels)
    (hclear : ∀ u v, InRangePixel u v → pixel s u v = false) (hdrawn : PixelsDrawn pixels true s.fb t.fb) :
    litPixels t = pixels.toFinset := by
  ext ⟨u, v⟩
  rw [mem_litPixels, List.mem_toFinset]
  have hpixel (huv : InRangePixel u v) : pixel t u v = true ↔ (u, v) ∈ pixels := by
    rw [pixel, hdrawn.pixelAt_of_off huv (hclear u v huv), decide_eq_true_iff]
  exact ⟨fun ⟨huv, hon⟩ => (hpixel huv).1 hon, fun hmem => ⟨hrange _ hmem, (hpixel (hrange _ hmem)).2 hmem⟩⟩

/-- On a clear FB a rectangle in range completes with as many pixels on as its set has. -/
theorem exec_drawRect_pixelsOn {s : State} {x y w h : Nat} (hclear : ∀ u v, InRangePixel u v → pixel s u v = false)
    (hw : x + w ≤ Config.width) (hh : y + h ≤ Config.height) (filled : Bool) :
    ∃ t, exec (.drawRect x y w h true filled) s = .next t ∧ pixelsOn t = (rectPixels x y w h filled).toFinset.card := by
  have hrange : AllInRangePixel (rectPixels x y w h filled) := allInRangePixel_rect.2 (.inr (.inr ⟨hw, hh⟩))
  obtain ⟨fb', hnext, hdrawn⟩ := drawPixels_next_of_inRange hrange true s
  exact ⟨_, hnext, by rw [pixelsOn_eq_card, litPixels_of_drawn hrange hclear hdrawn]⟩

/-- The region of a rectangle (41_drawing_engine.md R133). -/
def region (x y w h : Nat) : Finset (Nat × Nat) := Finset.Ico x (x + w) ×ˢ Finset.Ico y (y + h)

theorem card_region (x y w h : Nat) : (region x y w h).card = w * h := by
  simp [region]

theorem toFinset_rectPixels_filled (x y w h : Nat) : (rectPixels x y w h true).toFinset = region x y w h := by
  ext ⟨u, v⟩
  simp only [List.mem_toFinset, mem_rectPixels, region, Finset.mem_product, Finset.mem_Ico, true_or, and_true]
  omega

/-- The region inside the boundary of a rectangle of at least 2 by 2. -/
theorem interior_subset_region (x y w h : Nat) : region (x + 1) (y + 1) w h ⊆ region x y (w + 2) (h + 2) :=
  Finset.product_subset_product (Finset.Ico_subset_Ico (by omega) (by omega)) (Finset.Ico_subset_Ico (by omega) (by omega))

theorem toFinset_rectPixels_outline (x y w h : Nat) :
    (rectPixels x y (w + 2) (h + 2) false).toFinset = region x y (w + 2) (h + 2) \ region (x + 1) (y + 1) w h := by
  ext ⟨u, v⟩
  simp only [List.mem_toFinset, mem_rectPixels, region, Finset.mem_sdiff, Finset.mem_product, Finset.mem_Ico,
    Bool.false_eq_true, false_or]
  omega

theorem card_rectPixels_outline (x y w h : Nat) :
    (rectPixels x y (w + 2) (h + 2) false).toFinset.card = 2 * (w + 2) + 2 * (h + 2) - 4 := by
  have hall : (w + 2) * (h + 2) = w * h + 2 * w + 2 * h + 4 := by ring
  rw [toFinset_rectPixels_outline, Finset.card_sdiff_of_subset (interior_subset_region x y w h), card_region, card_region, hall]
  omega

/-- Settles O21: the filled set is the region, the outline is the region without its interior. -/
theorem rectanglePixelCounts : Obligations.RectanglePixelCounts := by
  unfold Obligations.RectanglePixelCounts
  intro s x y w h hclear hw hh
  constructor
  · have hcount := exec_drawRect_pixelsOn hclear hw hh true
    rwa [toFinset_rectPixels_filled, card_region] at hcount
  · intro hw2 hh2
    obtain ⟨w, rfl⟩ := Nat.exists_eq_add_of_le' hw2
    obtain ⟨h, rfl⟩ := Nat.exists_eq_add_of_le' hh2
    have hcount := exec_drawRect_pixelsOn hclear hw hh false
    rwa [card_rectPixels_outline] at hcount

/-! ### DRAW_TEXT (41_drawing_engine.md R140) -/

theorem encode_drawText (row column n : Byte) {chars : List Byte} (hn : chars.length = n.toNat) (on : Bool) :
    encode (.drawText row.toNat column.toNat chars on) = (if on then 0x61 else 0x60) :: row :: column :: n :: chars := by
  have hop : opcodeByte 6 false on = if on then 0x61 else 0x60 := by cases on <;> decide
  simp only [encode, hop, hn, operandByte_of_toNat]

theorem wellFormed_drawText (row column n : Byte) {chars : List Byte} (hn : chars.length = n.toNat) (on : Bool) :
    (Instr.drawText row.toNat column.toNat chars on).wellFormed = true := by
  simp only [Instr.wellFormed, hn, operandFits_toNat, Bool.and_self]

/-- A cell of the text is column `i` of some character `k`. -/
theorem mem_textCells_iff_char {row c0 : Nat} {chars : List Byte} {on : Bool} {q : Nat × Nat} :
    q ∈ textCells row c0 chars on ↔
      ∃ k i, k < chars.length ∧ i < Config.glyphWidth ∧ q = (row, c0 + k * Config.glyphWidth + i) := by
  constructor
  · intro hq
    obtain ⟨w, hw, rfl⟩ := List.mem_map.1 hq
    obtain ⟨k, i, hk, hi, rfl⟩ := mem_textWrites.1 hw
    exact ⟨k, i, hk, hi, rfl⟩
  · rintro ⟨k, i, hk, hi, rfl⟩
    exact mem_textCells_of_char row c0 on hk hi

theorem forall_mem_textCells {row c0 : Nat} {chars : List Byte} {on : Bool} {P : Nat × Nat → Prop} :
    (∀ q ∈ textCells row c0 chars on, P q) ↔
      ∀ k i, k < chars.length → i < Config.glyphWidth → P (row, c0 + k * Config.glyphWidth + i) := by
  simp only [mem_textCells_iff_char]
  exact ⟨fun h k i hk hi => h _ ⟨k, i, hk, hi, rfl⟩, by rintro h q ⟨k, i, hk, hi, rfl⟩; exact h k i hk hi⟩

/-- The framebuffer that the writes of a text in range make. -/
def textWritten (fb : Memory) (row c0 : Nat) (chars : List Byte) (on : Bool) : Memory :=
  fb.writeAll ((textWrites row c0 chars on).map fun w => (cellIndex w.1.1 w.1.2, w.2))

theorem execDrawText_next_of_inRange {row column : Nat} {chars : List Byte} {on : Bool}
    (h : AllInRangeCell (textCells row (column * Config.glyphWidth) chars on)) (s : State) :
    execDrawText row column chars on s =
      .next (respond none { s with fb := textWritten s.fb row (column * Config.glyphWidth) chars on }) := by
  rw [execDrawText_of_inRange h, writeCells_of_inRange h]
  rfl

/-- A column of the text belongs to one character only. -/
theorem charColumn_inj {k i k' i' : Nat} (hi : i < Config.glyphWidth) (hi' : i' < Config.glyphWidth)
    (h : k * Config.glyphWidth + i = k' * Config.glyphWidth + i') : k = k' ∧ i = i' := by
  have hdiv (k : Nat) {i : Nat} (hi : i < Config.glyphWidth) : (k * Config.glyphWidth + i) / Config.glyphWidth = k := by
    rw [Nat.mul_comm, Nat.mul_add_div glyphWidth_pos, Nat.div_eq_of_lt hi, Nat.add_zero]
  obtain rfl : k = k' := by rw [← hdiv k hi, h, hdiv k' hi']
  exact ⟨rfl, Nat.add_left_cancel h⟩

theorem read_textWritten_char (fb : Memory) {row c0 : Nat} {chars : List Byte} {on : Bool}
    (hrange : AllInRangeCell (textCells row c0 chars on)) {k i : Nat} (hk : k < chars.length) (hi : i < Config.glyphWidth) :
    (textWritten fb row c0 chars on).read (cellIndex row (c0 + k * Config.glyphWidth + i)) = glyphCell chars[k] on i := by
  have hcol := forall_mem_textCells.1 hrange
  refine Memory.read_writeAll_same _ _ _ _ ?_ ⟨_, List.mem_map.2 ⟨_, mem_textWrites.2 ⟨k, i, hk, hi, rfl⟩, rfl⟩, rfl⟩
  intro w hw hsame
  obtain ⟨_, hw', rfl⟩ := List.mem_map.1 hw
  obtain ⟨k', i', hk', hi', rfl⟩ := mem_textWrites.1 hw'
  have hcolumn := ((cellIndex_inj (hcol k' i' hk' hi').2 (hcol k i hk hi).2).1 hsame).2
  have hoffset : k' * Config.glyphWidth + i' = k * Config.glyphWidth + i := by omega
  obtain ⟨rfl, rfl⟩ := charColumn_inj hi' hi hoffset
  rfl

theorem read_textWritten_other (fb : Memory) {row c0 : Nat} {chars : List Byte} {on : Bool} {a : Nat}
    (ha : ∀ q ∈ textCells row c0 chars on, a ≠ cellIndex q.1 q.2) : (textWritten fb row c0 chars on).read a = fb.read a := by
  refine Memory.read_writeAll_other _ _ _ fun w hw hsame => ?_
  obtain ⟨w', hw', rfl⟩ := List.mem_map.1 hw
  exact ha w'.1 (List.mem_map_of_mem hw') hsame.symm

theorem getElem?_glyph (code : Int) {i : Nat} (hi : i < Config.glyphWidth) :
    (Config.glyph code)[i]? = some (Config.glyphByte code i) := by
  simp [Config.glyph, hi]

/-- Settles O23: FB becomes `textWritten`, which reads a character's glyph column in its cell and is unchanged elsewhere. -/
theorem drawTextOverwritesItsCells : Obligations.DrawTextOverwritesItsCells := by
  unfold Obligations.DrawTextOverwritesItsCells
  refine ⟨fun row column n chars on hn =>
    decode_of_encode_eq (encode_drawText row column n hn on) (wellFormed_drawText row column n hn on), ?_⟩
  intro s row column chars on
  obtain ⟨-, -, text, -⟩ := allOrNothing s
  refine ⟨fun h => ?_, text row column chars on⟩
  have hrange : AllInRangeCell (textCells row (column * Config.glyphWidth) chars on) := forall_mem_textCells.2 h
  refine ⟨_, execDrawText_next_of_inRange hrange s, fun k i hk hi => ?char, fun a ha => ?other⟩
  case char => exact ⟨_, getElem?_glyph _ hi, read_textWritten_char s.fb hrange hk hi⟩
  case other => exact read_textWritten_other s.fb (forall_mem_textCells.2 ha)

/-! ### The other polarity (41_drawing_engine.md R141) -/

theorem glyphCell_not (ch : Byte) (on : Bool) (i : Nat) : glyphCell ch (!on) i = ~~~(glyphCell ch on i) := by
  cases on <;> simp [glyphCell]

/-- Settles O25: each cell of the text is a column of a character, and the glyph byte of the other polarity is the complement. -/
theorem inverseTextComplements : Obligations.InverseTextComplements := by
  unfold Obligations.InverseTextComplements
  intro s row column chars on hrow hcol
  have hrange (on' : Bool) : AllInRangeCell (textCells row (column * Config.glyphWidth) chars on') :=
    allInRangeCell_text.2 (.inr ⟨hrow, hcol⟩)
  refine ⟨_, _, execDrawText_next_of_inRange (hrange on) s, execDrawText_next_of_inRange (hrange !on) _, ?_⟩
  intro c hfirst hlast
  have hmem : (row, c) ∈ textCells row (column * Config.glyphWidth) chars on :=
    mem_textCells.2 ⟨rfl, hfirst, by rwa [← Nat.add_mul]⟩
  obtain ⟨k, i, hk, hi, hq⟩ := mem_textCells_iff_char.1 hmem
  obtain ⟨-, rfl⟩ := Prod.mk.inj hq
  simp only [cell, respond_fb]
  rw [read_textWritten_char _ (hrange !on) hk hi, read_textWritten_char _ (hrange on) hk hi, glyphCell_not]

end Sys2Proof.Machine
end

section
/-! INIT and its transaction (42_init_protocol.md): the step that accepts it (R151), the rows of the sequencer (R152), and a whole
INIT, run row by row (R155). -/

namespace Sys2Proof.Machine

/-! ### INIT accepted (R151) -/

/-- Settles O31: FB becomes `clearCells`, which reads 0 in range and of a canonical FB lists nothing. -/
theorem initClearsThenStarts : Obligations.InitClearsThenStarts := by
  unfold Obligations.InitClearsThenStarts
  exact fun s => ⟨clearCells s.fb, rfl, fun p c => read_clearCells s.fb, clearCells_eq_nil⟩

/-- The state in which INIT begins its transaction. -/
def initBegun (s : State) (rest : List Packet) : State :=
  { s with commands := rest, fb := clearCells s.fb, st := .iStart }

theorem step_init {s : State} {rest : List Packet} (hst : s.st = .idle) (hc : s.commands = [0x10] :: rest) :
    step s = .next (initBegun s rest) := by
  rw [step_of_packet hst hc, show decode [0x10] = .ok .init from decode_of_encode_eq rfl rfl]
  rfl

/-! ### The rows with a guard or an answer (R152) -/

theorem initCmds_byte {s : State} {b : Byte} (hb : Config.initCmds[s.k]? = some b) :
    initCmds s = .next { txWrite b s with k := s.k + 1 } := by
  obtain ⟨hk, rfl⟩ := List.getElem?_eq_some_iff.1 hb
  exact dif_pos hk

theorem initCmds_done {s : State} (hk : s.k = Config.initLength) : initCmds s = .next { s with st := .iStop } := by
  have hend : ¬ s.k < Config.initCmds.length := hk.not_lt
  rw [initCmds, dif_neg hend, if_pos hk]

/-- The response an INIT ends with. -/
def initResponse : BusAnswer → Response
  | .ok => .ok none
  | .err e => .error (.transportError e)

/-- I_EXEC, whatever the answer: only the response depends on it, and the ghosts `boot` and DISP. -/
theorem initExec_eq (s : State) :
    initExec s = { displayAfterInit (nextAnswer s) (txExec s) with
      st := .idle, responses := s.responses ++ [initResponse (nextAnswer s)] } := by
  obtain ⟨ha, ht⟩ | ⟨e, ha, ht⟩ := initExec_cases s <;> rw [ht, ha] <;> rfl

@[simp] theorem initExec_st (s : State) : (initExec s).st = .idle := by rw [initExec_eq]
@[simp] theorem initExec_fb (s : State) : (initExec s).fb = s.fb := by simp [initExec_eq]
@[simp] theorem initExec_txn (s : State) : (initExec s).txn = s.txn := by simp [initExec_eq]
@[simp] theorem initExec_k (s : State) : (initExec s).k = s.k := by simp [initExec_eq]
@[simp] theorem initExec_commands (s : State) : (initExec s).commands = s.commands := by simp [initExec_eq]
@[simp] theorem initExec_log (s : State) : (initExec s).log = s.log ++ [⟨s.txn, nextAnswer s⟩] := by simp [initExec_eq]
@[simp] theorem initExec_events (s : State) : (initExec s).events =
    s.events ++ [.txExec s.txn Config.peripheralAddress Config.timeout (nextAnswer s)] := by simp [initExec_eq]
@[simp] theorem initExec_responses (s : State) :
    (initExec s).responses = s.responses ++ [initResponse (nextAnswer s)] := by rw [initExec_eq]

/-- I_EXEC takes exactly one answer (10_state.md R30). -/
@[simp] theorem upcoming_initExec (s : State) (n : Nat) : upcoming (initExec s) n = upcoming s (n + 1) :=
  calc upcoming (initExec s) n
    _ = upcoming (txExec s) n := upcoming_congr _ _ (by simp [initExec_eq]) (by simp [initExec_eq]) n
    _ = upcoming s (n + 1) := upcoming_txExec s n

/-- Settles O32: the step of each row, I_EXEC read field by field. -/
theorem initTransitionTable : Obligations.InitTransitionTable := by
  unfold Obligations.InitTransitionTable
  intro s
  refine ⟨?accept, step_iStart, step_iAddr, step_iMark, ?byte, ?done, step_iStop, ?answer⟩
  case accept => exact fun rest hst hc => ⟨clearCells s.fb, step_init hst hc, fun p c => read_clearCells s.fb⟩
  case byte => exact fun b hst hb => (step_iCmds hst).trans (initCmds_byte hb)
  case done => exact fun hst hk => (step_iCmds hst).trans (initCmds_done hk)
  case answer =>
    exact fun hst => ⟨initExec s, step_iExec hst, initExec_st s, initExec_fb s, initExec_txn s, initExec_k s,
      initExec_commands s, initExec_log s, initExec_events s, initExec_responses s⟩

/-! ### Writing the transaction -/

/-- I_CMDS after the first `k` bytes of `INIT_CMDS` have been written, for a transaction begun in `s`. -/
def cmdsWritten (s : State) (k : Nat) : State :=
  { s with
    st := .iCmds
    k := k
    txn := [Config.addrByte, Config.markerCmdStream] ++ Config.initCmds.take k
    events := s.events ++ [.txBegin] ++
      ([Config.addrByte, Config.markerCmdStream] ++ Config.initCmds.take k).map fun b => .txWrite b Config.ackRequired }

/-- I_EXEC, for a transaction begun in `s`. -/
def initWritten (s : State) : State :=
  { s with
    st := .iExec
    k := Config.initLength
    txn := initTxn
    events := s.events ++ [.txBegin] ++ (initTxn.map fun b => .txWrite b Config.ackRequired) ++ [.txEnd] }

theorem run_initHeader {s : State} (hst : s.st = .iStart) : run 3 s = .next (cmdsWritten s 0) := by
  rw [run, step_iStart hst, andThen_next, run, step_iAddr rfl, andThen_next, run, step_iMark rfl, andThen_next, run]
  simp [cmdsWritten, initMark, initAddr, initStart, txWrite, txBegin]

theorem step_cmdsWritten (s : State) {k : Nat} (hk : k < Config.initLength) :
    step (cmdsWritten s k) = .next (cmdsWritten s (k + 1)) := by
  have hbyte : Config.initCmds[(cmdsWritten s k).k]? = some Config.initCmds[k] := List.getElem?_eq_getElem hk
  have htake : Config.initCmds.take (k + 1) = Config.initCmds.take k ++ [Config.initCmds[k]] :=
    List.take_succ_eq_append_getElem hk
  rw [step_iCmds rfl, initCmds_byte hbyte]
  simp [cmdsWritten, txWrite, htake]

theorem run_cmdsWritten (s : State) {k : Nat} (hk : k ≤ Config.initLength) :
    run k (cmdsWritten s 0) = .next (cmdsWritten s k) := by
  induction k with
  | zero => rfl
  | succ k ih => rw [run_add, ih (by omega), andThen_next, run_one, step_cmdsWritten s hk]

theorem run_initTrailer (s : State) : run 2 (cmdsWritten s Config.initLength) = .next (initWritten s) := by
  have htake : Config.initCmds.take Config.initLength = Config.initCmds := List.take_length
  rw [run, step_iCmds rfl, initCmds_done rfl, andThen_next, run, step_iStop rfl, andThen_next, run]
  simp [initStop, txEnd, initWritten, cmdsWritten, initTxn, htake]

/-- The transaction is handed over after `N_INIT + 5` steps (R152, I_START to I_STOP). -/
theorem run_initWritten {s : State} (hst : s.st = .iStart) :
    run (3 + (Config.initLength + 2)) s = .next (initWritten s) := by
  rw [run_add, run_initHeader hst, andThen_next, run_add, run_cmdsWritten s le_rfl, andThen_next, run_initTrailer]

/-! ### A whole INIT (R155) -/

theorem run_init {s : State} {rest : List Packet} (hst : s.st = .idle) (hc : s.commands = [0x10] :: rest) :
    run (Config.initLength + 7) s = .next (initExec (initWritten (initBegun s rest))) := by
  rw [show Config.initLength + 7 = 1 + (3 + (Config.initLength + 2) + 1) by omega, run_add, run_one, step_init hst hc,
    andThen_next, run_add, run_initWritten rfl, andThen_next, run_one, step_iExec rfl]

theorem nextAnswer_initWritten (s : State) : nextAnswer (initWritten s) = upcoming s 0 := (upcoming_zero s).symm

/-- The events of a transaction handed over and answered are those of the whole transaction (30_encoding.md R91). -/
theorem events_initWritten_answered (s : State) (answer : BusAnswer) :
    (initWritten s).events ++ [.txExec initTxn Config.peripheralAddress Config.timeout answer] =
      s.events ++ transactionEvents initTxn answer := by
  simp [initWritten, transactionEvents]

/-- Settles O33: the answer to the transaction that INIT's rows have written. -/
theorem initSendsOneTransaction : Obligations.InitSendsOneTransaction := by
  unfold Obligations.InitSendsOneTransaction
  intro s rest hst hc
  have hanswer : nextAnswer (initWritten (initBegun s rest)) = upcoming s 0 := nextAnswer_initWritten _
  refine ⟨_, run_init hst hc, initExec_st _, initExec_commands _, fun p c hpc => ?cells, ?log, ?events, ?response, ?answers⟩
  case cells =>
    rw [cell, initExec_fb]
    exact read_clearCells s.fb hpc
  case log =>
    rw [initExec_log, hanswer]
    rfl
  case events =>
    rw [initExec_events, hanswer]
    exact events_initWritten_answered (initBegun s rest) _
  case response =>
    rw [initExec_responses, hanswer]
    rfl
  case answers => exact fun n => upcoming_initExec _ n

end Sys2Proof.Machine
end

section
/-! The page-write FSM (43_refresh_fsm.md): the rows T0 to T11 (R167), what a REFRESH of some pages has sent (R171 to R174), and
its payload read back (R175). -/

namespace Sys2Proof.Machine

/-! ### The rows (R167) -/

/-- Settles O34: row T0 is the whole meaning of REFRESH. -/
theorem refreshStartsAtPageZero : Obligations.RefreshStartsAtPageZero := by
  unfold Obligations.RefreshStartsAtPageZero
  exact fun _ => rfl

theorem refreshPageCmd_of_page {s : State} (hpg : s.pg < Config.pageCount) :
    refreshPageCmd s = .next { txWrite (Config.pageCmd s.pg) s with st := .rMarkData } :=
  if_pos hpg

theorem refreshData_cell {s : State} (hpg : s.pg < Config.pageCount) (hcol : s.col < Config.width) :
    refreshData s = .next { txWrite (cell s s.pg s.col) s with col := s.col + 1 } := by
  rw [refreshData, if_pos hcol, fbRead_of_inRange ⟨hpg, hcol⟩]
  rfl

theorem refreshData_done {s : State} (hcol : s.col = Config.width) : refreshData s = .next { s with st := .rStop } := by
  rw [refreshData, if_neg hcol.not_lt, if_pos hcol]

/-- R_EXEC with PG a page: one of the rows T9 to T11 applies. -/
theorem refreshExec_next {s : State} (hpg : s.pg < Config.pageCount) : ∃ t, refreshExec s = .next t := by
  cases ha : nextAnswer s with
  | err e => exact ⟨_, refreshExec_err ha⟩
  | ok =>
    by_cases hmore : s.pg < Config.pageCount - 1
    · exact ⟨_, refreshExec_more ha hmore⟩
    · exact ⟨_, refreshExec_last ha (by omega)⟩

/-- What every answer leaves and appends (R167, T9 to T11). -/
theorem refreshExec_frame {s t : State} (h : refreshExec s = .next t) :
    t.txn = s.txn ∧ t.col = s.col ∧
      t.events = s.events ++ [.txExec s.txn Config.peripheralAddress Config.timeout (nextAnswer s)] := by
  obtain ⟨-, -, rfl⟩ | ⟨-, -, rfl⟩ | ⟨e, -, rfl⟩ := refreshExec_cases h <;> simp [raiseTransport]

/-- Settles O35: the step of each row; at an answer what all three rows share, then what each does. -/
theorem pageWriteTransitionTable : Obligations.PageWriteTransitionTable := by
  unfold Obligations.PageWriteTransitionTable
  intro s
  refine ⟨?accept, step_rStart, step_rAddr, step_rMarkCmd, ?pageCmd, step_rMarkData, ?cell, ?done, step_rStop, ?answer⟩
  case accept => exact fun rest hst hc => step_refresh hst hc
  case pageCmd => exact fun hst hpg => (step_rPageCmd hst).trans (refreshPageCmd_of_page hpg)
  case cell => exact fun hst hpg hcol => (step_rData hst).trans (refreshData_cell hpg hcol)
  case done => exact fun hst hcol => (step_rData hst).trans (refreshData_done hcol)
  case answer =>
    intro hst hpg
    obtain ⟨t, ht⟩ := refreshExec_next hpg
    have hstep : step s = .next t := (step_rExec hst).trans ht
    obtain ⟨hfb, hcommands, -⟩ := sequencerStep_frame ((step_of_busy (by simp [hst])).symm.trans hstep)
    have hlog : t.log = s.log ++ [⟨s.txn, nextAnswer s⟩] := (logGrowsOnlyAtAnAnswer s t hstep).1 (.inr hst)
    obtain ⟨htxn, hcol, hevents⟩ := refreshExec_frame ht
    refine ⟨t, hstep, hfb, htxn, hcol, hcommands, hlog, hevents, fun ha hmore => ?_, fun ha hlast => ?_, fun e ha => ?_⟩
    · obtain rfl := Host.Outcome.next.inj ((refreshExec_more ha hmore).symm.trans ht)
      simp
    · obtain rfl := Host.Outcome.next.inj ((refreshExec_last ha hlast).symm.trans ht)
      simp
    · obtain rfl := Host.Outcome.next.inj ((refreshExec_err ha).symm.trans ht)
      simp [raiseTransport]

/-! ### What the pages sent have left -/

@[simp] theorem pageWritten_fb (s : State) : (pageWritten s).fb = s.fb := rfl
@[simp] theorem pageWritten_txn (s : State) : (pageWritten s).txn = pageTxn s.fb s.pg := rfl
@[simp] theorem pageWritten_commands (s : State) : (pageWritten s).commands = s.commands := rfl
@[simp] theorem pageWritten_log (s : State) : (pageWritten s).log = s.log := rfl
@[simp] theorem pageWritten_responses (s : State) : (pageWritten s).responses = s.responses := rfl

/-- The events of a page handed over and answered are those of the whole transaction (30_encoding.md R91). -/
theorem events_pageWritten_answered (s : State) (answer : BusAnswer) :
    (pageWritten s).events ++ [.txExec (pageTxn s.fb s.pg) Config.peripheralAddress Config.timeout answer] =
      s.events ++ transactionEvents (pageTxn s.fb s.pg) answer := by
  simp [pageWritten, transactionEvents]

section AtPage

variable (s : State) (rest : List Packet) (n : Nat)

/-- The entries of LOG for the first `n` pages, each with its answer (43_refresh_fsm.md R172). -/
def sentEntries : List LogEntry := (List.range n).map fun p => ⟨pageTxn s.fb p, upcoming s p⟩

/-- The bus events of the first `n` pages, each with its answer. -/
def sentEvents : List BusEvent := (List.range n).flatMap fun p => transactionEvents (pageTxn s.fb p) (upcoming s p)

theorem sentEntries_succ : sentEntries s (n + 1) = sentEntries s n ++ [⟨pageTxn s.fb n, upcoming s n⟩] := by
  simp [sentEntries, List.range_succ]

theorem sentEvents_succ :
    sentEvents s (n + 1) = sentEvents s n ++ transactionEvents (pageTxn s.fb n) (upcoming s n) := by
  simp [sentEvents, List.range_succ]

/-- The state of a REFRESH once the answer for page `n` has been taken, before the command ends or the next page begins. -/
def refreshAnswered (a : BusAnswer) : State := displayAfterPage a (txExec (pageWritten (refreshAtPage s rest n)))

theorem refreshAtPage_succ :
    refreshAtPage s rest (n + 1) =
      { refreshAnswered s rest n .ok with pg := (refreshAtPage s rest n).pg + 1, st := .rStart } :=
  Function.iterate_succ_apply' _ _ _

variable (a : BusAnswer)

@[simp] theorem refreshAnswered_fb : (refreshAnswered s rest n a).fb = s.fb := by simp [refreshAnswered]
@[simp] theorem refreshAnswered_commands :
    (refreshAnswered s rest n a).commands = (refreshAtPage s rest n).commands := by simp [refreshAnswered]
@[simp] theorem refreshAnswered_responses :
    (refreshAnswered s rest n a).responses = (refreshAtPage s rest n).responses := by simp [refreshAnswered]
@[simp] theorem refreshAnswered_log :
    (refreshAnswered s rest n a).log = (refreshAtPage s rest n).log ++ [⟨pageTxn s.fb n, upcoming s n⟩] := by
  simp [refreshAnswered, nextAnswer_refreshAtPage]

@[simp] theorem refreshAnswered_events :
    (refreshAnswered s rest n a).events =
      (refreshAtPage s rest n).events ++ transactionEvents (pageTxn s.fb n) (upcoming s n) := by
  have htransaction := events_pageWritten_answered (refreshAtPage s rest n) (upcoming s n)
  simp only [refreshAtPage_fb, refreshAtPage_pg] at htransaction
  simp [refreshAnswered, nextAnswer_refreshAtPage, htransaction]

@[simp] theorem upcoming_refreshAnswered (m : Nat) :
    upcoming (refreshAnswered s rest n a) m = upcoming s (m + (n + 1)) :=
  calc upcoming (refreshAnswered s rest n a) m
    _ = upcoming (txExec (pageWritten (refreshAtPage s rest n))) m :=
      upcoming_congr _ _ (displayAfterPage_answers _ _) (displayAfterPage_answerIndex _ _) m
    _ = upcoming (refreshAtPage s rest n) (m + 1) := upcoming_txExec _ m
    _ = upcoming s (m + (n + 1)) := by rw [upcoming_refreshAtPage, Nat.add_assoc, Nat.add_comm 1 n]

@[simp] theorem refreshAtPage_commands : (refreshAtPage s rest n).commands = rest := by
  induction n with
  | zero => rfl
  | succ n ih => simp [refreshAtPage_succ, ih]

@[simp] theorem refreshAtPage_responses : (refreshAtPage s rest n).responses = s.responses := by
  induction n with
  | zero => rfl
  | succ n ih => simp [refreshAtPage_succ, ih]

@[simp] theorem refreshAtPage_log : (refreshAtPage s rest n).log = s.log ++ sentEntries s n := by
  induction n with
  | zero => exact (List.append_nil _).symm
  | succ n ih => simp [refreshAtPage_succ, ih, sentEntries_succ]

@[simp] theorem refreshAtPage_events : (refreshAtPage s rest n).events = s.events ++ sentEvents s n := by
  induction n with
  | zero => exact (List.append_nil _).symm
  | succ n ih => simp [refreshAtPage_succ, ih, sentEvents_succ]

end AtPage

theorem sentEntries_of_ok {s : State} {n : Nat} (hok : ∀ p, p < n → upcoming s p = .ok) :
    sentEntries s n = (List.range n).map fun p => ⟨pageTxn s.fb p, .ok⟩ :=
  List.map_congr_left fun p hp => by rw [hok p (List.mem_range.1 hp)]

theorem sentEvents_of_ok {s : State} {n : Nat} (hok : ∀ p, p < n → upcoming s p = .ok) :
    sentEvents s n = (List.range n).flatMap fun p => transactionEvents (pageTxn s.fb p) .ok :=
  List.flatMap_congr fun p hp => by rw [hok p (List.mem_range.1 hp)]

/-- The pages up to `n` answered, page `n` among them, are the first `n + 1`. -/
theorem refreshAnswered_log_eq (s : State) (rest : List Packet) (n : Nat) (a : BusAnswer) :
    (refreshAnswered s rest n a).log = s.log ++ sentEntries s (n + 1) := by
  simp [sentEntries_succ]

theorem refreshAnswered_events_eq (s : State) (rest : List Packet) (n : Nat) (a : BusAnswer) :
    (refreshAnswered s rest n a).events = s.events ++ sentEvents s (n + 1) := by
  simp [sentEvents_succ]

/-! ### A whole REFRESH (R172 to R174) -/

/-- Settles O37: the last page answered, every entry and every transaction is answered Ok. -/
theorem refreshSendsEveryPage : Obligations.RefreshSendsEveryPage := by
  unfold Obligations.RefreshSendsEveryPage
  intro s rest hst hc hok
  have hlast : Config.pageCount - 1 + 1 = Config.pageCount := by decide
  refine ⟨respond none (refreshAnswered s rest (Config.pageCount - 1) .ok), run_refresh_ok hst hc hok, rfl, by simp,
    by simp, ?log, ?events, by simp, ?answers⟩
  case log => rw [respond_log, refreshAnswered_log_eq, hlast, sentEntries_of_ok hok]
  case events => rw [respond_events, refreshAnswered_events_eq, hlast, sentEvents_of_ok hok]
  case answers => exact fun n => hlast ▸ upcoming_refreshAnswered s rest _ _ n

/-- Settles O38: the entries and the transactions before page `f` are answered Ok, that of page `f` with the error. -/
theorem refreshStopsAtTheFirstFailure : Obligations.RefreshStopsAtTheFirstFailure := by
  unfold Obligations.RefreshStopsAtTheFirstFailure
  intro s rest f e hst hc hf hok herr
  refine ⟨raiseTransport e (refreshAnswered s rest f (.err e)), run_refresh_err hst hc hf hok herr, rfl, ?commands, ?fb,
    ?log, ?events, ?response, fun n => upcoming_refreshAnswered s rest f _ n⟩
  case commands => simp [raiseTransport]
  case fb => simp [raiseTransport]
  case log => simp [raiseTransport, sentEntries_of_ok hok, herr]
  case events => simp [raiseTransport, sentEvents_of_ok hok, herr]
  case response => simp [raiseTransport]

theorem count_txBegin_transactionEvents (bytes : List Byte) (a : BusAnswer) :
    (transactionEvents bytes a).count .txBegin = 1 := by
  have hbytes : (bytes.map fun b => BusEvent.txWrite b Config.ackRequired).count .txBegin = 0 := by
    rw [List.count_eq_zero]; simp
  simp [transactionEvents, hbytes]

/-- Settles O39: O38 at page 3, where each of the four transactions sent has one TxBegin. -/
theorem failureOnPageThree : Obligations.FailureOnPageThree := by
  unfold Obligations.FailureOnPageThree
  intro s rest e hst hc h0 h1 h2 h3
  have hok : ∀ p, p < 3 → upcoming s p = .ok := fun p hp => by
    obtain rfl | rfl | rfl : p = 0 ∨ p = 1 ∨ p = 2 := by omega
    · exact h0
    · exact h1
    · exact h2
  obtain ⟨t, hrun, hidle, -, -, hlog, hevents, hresponse, -⟩ :=
    refreshStopsAtTheFirstFailure s rest 3 e hst hc (by decide) hok h3
  refine ⟨t, hrun, hidle, hresponse, ?log, _, hevents.trans (List.append_assoc _ _ _), ?count⟩
  case log => simpa [List.range_succ] using hlog
  case count => simp [List.range_succ, count_txBegin_transactionEvents]

/-! ### The payload read back (R175) -/

theorem drop_pageTxn (fb : Memory) (p : Nat) : (pageTxn fb p).drop 4 = pageData fb p :=
  List.drop_left' (length_pageHeader p)

/-- The cells page by page are the cells in row-major order (20_memory.md R53). -/
theorem map_allCells (fb : Memory) :
    (allCells.map fun q => fb.read (cellIndex q.1 q.2)) = (List.range Config.pageCount).flatMap (pageData fb) := by
  simp only [allCells, List.map_flatMap, List.map_map]
  rfl

/-- The cells of the first `n` pages, each at its place in the enumeration (20_memory.md R53). -/
theorem flatMap_pages_eq (n : Nat) :
    ((List.range n).flatMap fun p => (List.range Config.width).map fun c => (p, c)) =
      (List.range (n * Config.width)).map fun a => (a / Config.width, a % Config.width) := by
  induction n with
  | zero => simp
  | succ n ih =>
    have hpage : ∀ c ∈ List.range Config.width,
        ((n * Config.width + c) / Config.width, (n * Config.width + c) % Config.width) = (n, c) := fun c hc => by
      have hcol : c < 128 := List.mem_range.1 hc
      rw [width_eq, Prod.mk.injEq]
      omega
    rw [List.range_succ, List.flatMap_append, ih, Nat.succ_mul, List.range_add, List.map_append, List.map_map]
    simpa using (List.map_congr_left hpage).symm

theorem allCells_eq :
    allCells = (List.range Config.cellCount).map fun a => (a / Config.width, a % Config.width) := by
  rw [allCells, flatMap_pages_eq, Config.cellCount]

theorem length_allCells : allCells.length = Config.pageCount * Config.width := by
  rw [allCells_eq, List.length_map, List.length_range, Config.cellCount]

theorem getElem?_allCells {p c : Nat} (h : InRangeCell p c) : allCells[p * Config.width + c]? = some (p, c) := by
  obtain ⟨hp, hc⟩ := h
  have hindex : p * Config.width + c < Config.cellCount := cellIndex_lt ⟨hp, hc⟩
  rw [allCells_eq, List.getElem?_map, List.getElem?_range hindex, Option.map_some, width_eq, Option.some.injEq, Prod.mk.injEq]
  rw [width_eq] at hc
  omega

/-- Settles O40: the data bytes of page `p` are its row of the enumeration. -/
theorem refreshReadsBackRowMajor : Obligations.RefreshReadsBackRowMajor := by
  unfold Obligations.RefreshReadsBackRowMajor
  intro s rest hst hc hok
  refine ⟨?payload, length_allCells, fun p c => getElem?_allCells, fun q hq => ?read⟩
  case payload =>
    obtain ⟨t, hrun, -, -, -, hlog, -⟩ := refreshSendsEveryPage s rest hst hc hok
    refine ⟨t, hrun, ?_⟩
    rw [hlog, List.drop_left, List.flatMap_map]
    simp only [drop_pageTxn]
    exact (map_allCells s.fb).symm
  case read => exact ⟨_, execReadCell_of_inRange (mem_allCells.1 hq) s, rfl⟩

end Sys2Proof.Machine
end

section
/-! The invariant (43_refresh_fsm.md R168): every command keeps FB in canonical form, every row keeps what `sequencerInv` says of
TXN and the counters, and every answer is one more entry of LOG. -/

namespace Sys2Proof.Machine

/-! ### The canonical form of FB -/

theorem drawPixels_fb_wf {pixels : List (Nat × Nat)} {on : Bool} {s t : State} (hwf : s.fb.wf)
    (h : drawPixels pixels on s = .next t) : t.fb.wf := by
  by_cases hin : AllInRangePixel pixels
  · obtain ⟨fb', hset, -, -, hwf'⟩ := setPixels_spec (fb := s.fb) (on := on) hin
    rw [drawPixels, if_pos hin, finishWith, hset] at h
    obtain rfl := Host.Outcome.next.inj h
    exact hwf' hwf
  · rw [drawPixels, if_neg hin] at h
    obtain rfl := Host.Outcome.next.inj h
    exact hwf

theorem execDrawText_fb_wf {row column : Nat} {chars : List Byte} {on : Bool} {s t : State} (hwf : s.fb.wf)
    (h : execDrawText row column chars on s = .next t) : t.fb.wf := by
  unfold execDrawText at h
  split at h
  · next hin =>
    rw [finishWith, writeCells_of_inRange hin] at h
    obtain rfl := Host.Outcome.next.inj h
    refine Memory.wf_writeAll _ _ hwf fun w hw => ?_
    obtain ⟨v, hv, rfl⟩ := List.mem_map.1 hw
    exact cellIndex_lt (hin v.1 (List.mem_map.2 ⟨v, hv, rfl⟩))
  · obtain rfl := Host.Outcome.next.inj h
    exact hwf

/-- Every command keeps FB in canonical form. -/
theorem exec_fb_wf {i : Instr} {s t : State} (hwf : s.fb.wf) (h : exec i s = .next t) : t.fb.wf := by
  cases i with
  | init | clear =>
    obtain rfl := Host.Outcome.next.inj h
    exact clearCells_wf hwf
  | drawPixel x y on => exact drawPixels_fb_wf hwf ((congrFun (execDrawPixel_eq_drawPixels x y on) s).symm.trans h)
  | drawHline x y length on => exact drawPixels_fb_wf hwf h
  | drawRect x y width height on filled => exact drawPixels_fb_wf hwf h
  | drawText row column chars on => exact execDrawText_fb_wf hwf h
  | refresh | readCell page col => rwa [exec_fb_of_no_cell rfl h]

theorem step_fb_wf {s t : State} (hwf : s.fb.wf) (h : step s = .next t) : t.fb.wf := by
  obtain ⟨-, -, hs⟩ | ⟨p, rest, e, -, -, -, hs⟩ | ⟨p, rest, i, -, -, -, hs⟩ | ⟨-, hs⟩ := step_cases s <;>
    rw [hs] at h
  · obtain rfl := Host.Outcome.next.inj h
    exact hwf
  · obtain rfl := Host.Outcome.next.inj h
    exact hwf
  · exact exec_fb_wf (s := { s with commands := rest }) hwf h
  · rwa [(sequencerStep_frame h).1]

/-! ### What LOG, the bus events and the ghosts have seen -/

theorem logOf_append (u v : List BusEvent) : logOf (u ++ v) = logOf u ++ logOf v := List.filterMap_append

/-- The bus events hold the entries of LOG that a step of the sequencer appends. -/
theorem sequencerStep_logOf {s t : State} (h : sequencerStep s = .next t) :
    logOf t.events = logOf s.events ++ newEntries s := by
  cases hst : s.st <;> simp only [sequencerStep, hst] at h <;> simp only [newEntries, hst]
  case idle => obtain rfl := Host.Outcome.next.inj h; exact (List.append_nil _).symm
  case iCmds =>
    obtain ⟨-, rfl⟩ | ⟨-, rfl⟩ := initCmds_cases h
    · exact logOf_append _ _
    · exact (List.append_nil _).symm
  case rPageCmd => obtain ⟨-, rfl⟩ := refreshPageCmd_cases h; exact logOf_append _ _
  case rData =>
    obtain ⟨-, rfl⟩ | ⟨-, rfl⟩ := refreshData_cases h
    · exact logOf_append _ _
    · exact (List.append_nil _).symm
  case iExec => obtain rfl := Host.Outcome.next.inj h; rw [initExec_events]; exact logOf_append _ _
  case rExec => rw [(refreshExec_frame h).2.2]; exact logOf_append _ _
  all_goals obtain rfl := Host.Outcome.next.inj h; exact logOf_append _ _

/-- A command itself calls no bus primitive. -/
theorem exec_events {i : Instr} {s t : State} (h : exec i s = .next t) : t.events = s.events := by
  obtain ⟨-, hs⟩ | ⟨-, hs⟩ | ⟨fb', r, he⟩ := exec_cases i s
  · obtain rfl := Host.Outcome.next.inj (hs.symm.trans h)
    rfl
  · obtain rfl := Host.Outcome.next.inj (hs.symm.trans h)
    rfl
  · obtain rfl := Host.Outcome.next.inj ((he.outcome s rfl).symm.trans h)
    rfl

theorem step_logOf {s t : State} (h : step s = .next t) : logOf t.events = logOf s.events ++ newEntries s := by
  obtain ⟨hi, -, hs⟩ | ⟨p, rest, e, hi, -, -, hs⟩ | ⟨p, rest, i, hi, -, -, hs⟩ | ⟨-, hs⟩ := step_cases s <;>
    rw [hs] at h
  · obtain rfl := Host.Outcome.next.inj h
    simp [newEntries, hi]
  · obtain rfl := Host.Outcome.next.inj h
    simp [newEntries, hi]
  · simp [newEntries, hi, exec_events h]
  · exact sequencerStep_logOf h

/-- An answer for INIT, an answer for a page, or no answer. -/
theorem answer_cases (s : State) : s.st = .iExec ∨ s.st = .rExec ∨ (s.st ≠ .iExec ∧ s.st ≠ .rExec) := by
  tauto

theorem refreshExec_disp {s t : State} (h : refreshExec s = .next t) :
    t.disp = (displayAfterPage (nextAnswer s) (txExec s)).disp := by
  obtain ⟨ha, -, rfl⟩ | ⟨ha, -, rfl⟩ | ⟨e, ha, rfl⟩ := refreshExec_cases h <;> rw [ha] <;> rfl

theorem step_disp_wf {s t : State} (hinv : MachineInv s) (h : step s = .next t) : t.disp.wf := by
  obtain hst | hst | ⟨hi, hr⟩ := answer_cases s
  · obtain rfl := Host.Outcome.next.inj ((step_iExec hst).symm.trans h)
    rw [initExec_eq]
    exact displayAfterInit_wf (s := txExec s) hinv.disp_wf
  · rw [refreshExec_disp ((step_rExec hst).symm.trans h)]
    exact displayAfterPage_wf (s := txExec s) hinv.disp_wf (hinv.page_range (by rw [hst]; rfl))
  · rw [(step_displayKept hi hr h).1]
    exact hinv.disp_wf

theorem sequencerInv_iExec {s : State} (hst : s.st = .iExec) : sequencerInv s ↔ s.txn = initTxn := by
  simp only [sequencerInv, hst]

theorem sequencerInv_rExec {s : State} (hst : s.st = .rExec) : sequencerInv s ↔ s.txn = pageTxn s.fb s.pg := by
  simp only [sequencerInv, hst]

theorem bootAfterInit_eq_fresh {b : BootOrder} {a : BusAnswer} (h : bootAfterInit b a = .fresh) : b = .fresh ∧ a ≠ .ok := by
  by_cases hb : b = .fresh
  · refine ⟨hb, ?_⟩
    rintro rfl
    rw [hb] at h
    cases h
  · rw [bootAfterInit_of_ne_fresh hb] at h
    cases h

theorem bootAfterInit_eq_kept {b : BootOrder} {a : BusAnswer} (h : bootAfterInit b a = .kept) : b = .fresh ∧ a = .ok := by
  by_cases hb : b = .fresh
  · cases a with
    | ok => exact ⟨hb, rfl⟩
    | err e => rw [hb] at h; cases h
  · rw [bootAfterInit_of_ne_fresh hb] at h
    cases h

theorem bootAfterPage_ne_fresh (b : BootOrder) : bootAfterPage b ≠ .fresh := by
  cases b <;> decide

theorem bootAfterPage_eq_kept {b : BootOrder} (h : bootAfterPage b = .kept) : b = .kept := by
  cases b with
  | kept => rfl
  | fresh | broken => cases h

/-- The boot order is fresh after failed INITs only. -/
theorem step_boot_fresh {s t : State} (hinv : MachineInv s) (h : step s = .next t) (hfresh : t.boot = .fresh) :
    ∀ entry ∈ t.log, entry.bytes = initTxn ∧ entry.answer ≠ .ok := by
  obtain hst | hst | ⟨hi, hr⟩ := answer_cases s
  · obtain ⟨hboot, hfailed⟩ := bootAfterInit_eq_fresh ((step_iExec_boot hst h).symm.trans hfresh)
    have htxn : s.txn = initTxn := (sequencerInv_iExec hst).1 hinv.sequencer
    rw [(logGrowsOnlyAtAnAnswer s t h).1 (.inl hst)]
    exact List.forall_mem_append.2 ⟨hinv.boot_fresh hboot, List.forall_mem_singleton.2 ⟨htxn, hfailed⟩⟩
  · exact absurd ((step_rExec_boot hst h).symm.trans hfresh) (bootAfterPage_ne_fresh _)
  · rw [(logGrowsOnlyAtAnAnswer s t h).2 hi hr]
    exact hinv.boot_fresh ((step_displayKept hi hr h).2.symm.trans hfresh)

/-- The boot order is kept from the INIT that succeeds after failed ones. -/
theorem step_boot_kept {s t : State} (hinv : MachineInv s) (h : step s = .next t) (hkept : t.boot = .kept) :
    ∃ failed rest, t.log = failed ++ ⟨initTxn, .ok⟩ :: rest ∧
      ∀ entry ∈ failed, entry.bytes = initTxn ∧ entry.answer ≠ .ok := by
  obtain hst | hst | ⟨hi, hr⟩ := answer_cases s
  · obtain ⟨hboot, hok⟩ := bootAfterInit_eq_kept ((step_iExec_boot hst h).symm.trans hkept)
    have htxn : s.txn = initTxn := (sequencerInv_iExec hst).1 hinv.sequencer
    refine ⟨s.log, [], ?_, hinv.boot_fresh hboot⟩
    rw [(logGrowsOnlyAtAnAnswer s t h).1 (.inl hst), htxn, hok]
  · obtain ⟨failed, rest, hlog, hfailed⟩ := hinv.boot_kept (bootAfterPage_eq_kept ((step_rExec_boot hst h).symm.trans hkept))
    refine ⟨failed, rest ++ [⟨s.txn, nextAnswer s⟩], ?_, hfailed⟩
    rw [(logGrowsOnlyAtAnAnswer s t h).1 (.inr hst), hlog, List.append_assoc, List.cons_append]
  · rw [(logGrowsOnlyAtAnAnswer s t h).2 hi hr]
    exact hinv.boot_kept ((step_displayKept hi hr h).2.symm.trans hkept)

/-! ### The command in progress -/

/-- The part of the invariant that speaks of the command in progress. -/
structure ProgressInv (s : State) : Prop where
  sequencer : sequencerInv s
  init_clear : s.st.inInit = true → s.fb = []
  page_range : s.st.inRefresh = true → s.pg < Config.pageCount
  pages_sent : s.st.inRefresh = true →
    ∃ before, s.log = before ++ (List.range s.pg).map fun p => ⟨pageTxn s.fb p, .ok⟩
  pages_shown : s.boot = .kept → s.st.inRefresh = true →
    ∀ p c, p < s.pg → c < Config.width → shown s p c = cell s p c

/-- In IDLE no command is in progress. -/
theorem ProgressInv.of_idle {s : State} (hst : s.st = .idle) : ProgressInv s where
  sequencer := by simp only [sequencerInv, hst]
  init_clear h := by rw [hst] at h; cases h
  page_range h := by rw [hst] at h; cases h
  pages_sent h := by rw [hst] at h; cases h
  pages_shown _ h := by rw [hst] at h; cases h

/-- INIT begins its transaction on a clear FB. -/
theorem ProgressInv.of_iStart {s : State} (hst : s.st = .iStart) (hfb : s.fb = []) : ProgressInv s where
  sequencer := by simp only [sequencerInv, hst]
  init_clear _ := hfb
  page_range h := by rw [hst] at h; cases h
  pages_sent h := by rw [hst] at h; cases h
  pages_shown _ h := by rw [hst] at h; cases h

/-- REFRESH begins page PG. -/
theorem ProgressInv.of_rStart {s : State} (hst : s.st = .rStart) (hpg : s.pg < Config.pageCount)
    (hsent : ∃ before, s.log = before ++ (List.range s.pg).map fun p => ⟨pageTxn s.fb p, .ok⟩)
    (hshown : s.boot = .kept → ∀ p c, p < s.pg → c < Config.width → shown s p c = cell s p c) : ProgressInv s where
  sequencer := by simp only [sequencerInv, hst]
  init_clear h := by rw [hst] at h; cases h
  page_range _ := hpg
  pages_sent _ := hsent
  pages_shown hboot _ := hshown hboot

/-- A command ends, starts INIT, or starts REFRESH at page 0, where no page is before PG. -/
theorem exec_progress {i : Instr} {s t : State} (hwf : s.fb.wf) (h : exec i s = .next t) : ProgressInv t := by
  obtain ⟨-, hs⟩ | ⟨-, hs⟩ | ⟨fb', r, he⟩ := exec_cases i s
  · obtain rfl := Host.Outcome.next.inj (hs.symm.trans h)
    exact .of_iStart rfl (clearCells_eq_nil hwf)
  · obtain rfl := Host.Outcome.next.inj (hs.symm.trans h)
    exact .of_rStart rfl (by decide : 0 < Config.pageCount) ⟨s.log, (List.append_nil _).symm⟩
      fun _ p c hp => absurd hp (Nat.not_lt_zero p)
  · obtain rfl := Host.Outcome.next.inj ((he.outcome s rfl).symm.trans h)
    exact .of_idle rfl

theorem append_take_succ_initCmds (header : List Byte) {k : Nat} (hk : k < Config.initCmds.length) :
    header ++ Config.initCmds.take k ++ [Config.initCmds[k]] = header ++ Config.initCmds.take (k + 1) := by
  rw [List.append_assoc, List.take_succ_eq_append_getElem hk]

theorem append_take_succ_pageData (header : List Byte) (fb : Memory) (p : Nat) {c : Nat} (hc : c < Config.width) :
    header ++ (pageData fb p).take c ++ [fb.read (cellIndex p c)] = header ++ (pageData fb p).take (c + 1) := by
  rw [List.append_assoc, take_succ_pageData fb p hc]

/-- From `s` to `t` the transaction in progress goes on, TXN and the counters being what ST says in `t` too. -/
structure SameTransaction (s t : State) : Prop where
  pg : t.pg = s.pg
  inInit : t.st.inInit = s.st.inInit
  inRefresh : t.st.inRefresh = s.st.inRefresh
  sequencer : sequencerInv t

/-- Every row but those of an answer goes on with the transaction (R167; 42_init_protocol.md R152). -/
theorem sequencerStep_sameTransaction {s t : State} (hbusy : s.st ≠ .idle) (hi : s.st ≠ .iExec) (hr : s.st ≠ .rExec)
    (hinv : sequencerInv s) (h : sequencerStep s = .next t) : SameTransaction s t := by
  obtain ⟨fb, st, pg, col, k, txn, commands, answers, answerIndex, log, events, responses, boot, disp, freeIndex⟩ := s
  cases st with
  | idle => exact absurd rfl hbusy
  | iExec => exact absurd rfl hi
  | rExec => exact absurd rfl hr
  | iStart | rStart =>
    obtain rfl := Host.Outcome.next.inj h
    exact ⟨rfl, rfl, rfl, rfl⟩
  | iAddr | rAddr =>
    obtain rfl := Host.Outcome.next.inj h
    exact ⟨rfl, rfl, rfl, congrArg (· ++ [Config.addrByte]) hinv⟩
  | iMark =>
    obtain rfl := Host.Outcome.next.inj h
    exact ⟨rfl, rfl, rfl, Nat.zero_le _, congrArg (· ++ [Config.markerCmdStream]) hinv⟩
  | iCmds =>
    obtain ⟨-, htxn⟩ := hinv
    obtain ⟨hk, rfl⟩ | ⟨hk, rfl⟩ := initCmds_cases h
    · exact ⟨rfl, rfl, rfl, hk, (congrArg (· ++ [Config.initCmds[k]]) htxn).trans (append_take_succ_initCmds _ hk)⟩
    · refine ⟨rfl, rfl, rfl, htxn.trans ?_⟩
      rw [show k = Config.initCmds.length from hk, List.take_length, initTxn]
  | rMarkCmd =>
    obtain rfl := Host.Outcome.next.inj h
    exact ⟨rfl, rfl, rfl, congrArg (· ++ [Config.markerCmdSingle]) hinv⟩
  | rPageCmd =>
    obtain ⟨-, rfl⟩ := refreshPageCmd_cases h
    exact ⟨rfl, rfl, rfl, congrArg (· ++ [Config.pageCmd pg]) hinv⟩
  | rMarkData =>
    obtain rfl := Host.Outcome.next.inj h
    exact ⟨rfl, rfl, rfl, Nat.zero_le _, congrArg (· ++ [Config.markerData]) hinv⟩
  | rData =>
    obtain ⟨-, htxn⟩ := hinv
    obtain ⟨⟨-, hcol⟩, rfl⟩ | ⟨hcol, rfl⟩ := refreshData_cases h
    · exact ⟨rfl, rfl, rfl, hcol,
        (congrArg (· ++ [fb.read (cellIndex pg col)]) htxn).trans (append_take_succ_pageData _ fb pg hcol)⟩
    · refine ⟨rfl, rfl, rfl, htxn.trans ?_⟩
      rw [show col = Config.width from hcol, List.take_of_length_le (length_pageData fb pg).le, pageTxn]
  | iStop | rStop =>
    obtain rfl := Host.Outcome.next.inj h
    exact ⟨rfl, rfl, rfl, hinv⟩

/-- As long as no answer comes, what is said of the command in progress stays. -/
theorem sequencerStep_progress_of_not_exec {s t : State} (hbusy : s.st ≠ .idle) (hi : s.st ≠ .iExec) (hr : s.st ≠ .rExec)
    (hinv : MachineInv s) (h : sequencerStep s = .next t) : ProgressInv t := by
  obtain ⟨hpg, hinit, hrefresh, hseq⟩ := sequencerStep_sameTransaction hbusy hi hr hinv.sequencer h
  obtain ⟨hfb, -, hlog⟩ := sequencerStep_frame h
  obtain ⟨hdisp, hboot⟩ := sequencerStep_displayKept hi hr h
  rw [newEntries_of_not_exec hi hr, List.append_nil] at hlog
  refine ⟨hseq, ?_, ?_, ?_, ?_⟩
  · rw [hinit, hfb]; exact hinv.init_clear
  · rw [hrefresh, hpg]; exact hinv.page_range
  · rw [hrefresh, hlog, hpg, hfb]; exact hinv.pages_sent
  · unfold shown cell
    rw [hboot, hrefresh, hpg, hdisp, hfb]; exact hinv.pages_shown

/-- In the boot order a page answered Ok shows its cells, and the other pages what they did (10_state.md R33). -/
theorem shown_answered_ok {s : State} (hboot : s.boot = .kept) (htxn : s.txn = pageTxn s.fb s.pg) {q c : Nat}
    (hc : c < Config.width) :
    shown (displayAfterPage .ok (txExec s)) q c = if q = s.pg then cell s q c else shown s q c := by
  have hdisp : (displayAfterPage .ok (txExec s)).disp = (displayAfterPage .ok (txExec (pageWritten s))).disp :=
    (displayAfterPage_congr (s := txExec s) (t := txExec (pageWritten s)) .ok rfl rfl htxn rfl rfl).1
  rw [shown, hdisp]
  exact shown_page_ok hboot hc

/-- The answer for page PG: the command ends, or PG is one of the pages sent and the next page begins. -/
theorem refreshExec_progress {s t : State} (hst : s.st = .rExec) (hinv : MachineInv s) (h : refreshExec s = .next t) :
    ProgressInv t := by
  have hrefresh : s.st.inRefresh = true := by rw [hst]; rfl
  have htxn : s.txn = pageTxn s.fb s.pg := (sequencerInv_rExec hst).1 hinv.sequencer
  obtain ⟨hok, hmore, rfl⟩ | ⟨-, -, rfl⟩ | ⟨e, -, rfl⟩ := refreshExec_cases h
  · refine .of_rStart rfl (Nat.add_lt_of_lt_sub hmore) ?_ fun hboot p c hp hc => ?_
    · obtain ⟨before, hlog⟩ := hinv.pages_sent hrefresh
      refine ⟨before, ?_⟩
      simp [hlog, htxn, hok, List.range_succ]
    · have hkept : s.boot = .kept := bootAfterPage_eq_kept ((displayAfterPage_boot .ok (txExec s)).symm.trans hboot)
      have hcell : cell (displayAfterPage .ok (txExec s)) p c = cell s p c := by rw [cell, displayAfterPage_fb]; rfl
      refine (shown_answered_ok hkept htxn hc).trans (Eq.trans ?_ hcell.symm)
      split
      · rfl
      · next hne => exact hinv.pages_shown hkept hrefresh p c (lt_of_le_of_ne (Nat.le_of_lt_succ hp) hne) hc
  · exact .of_idle rfl
  · exact .of_idle rfl

theorem step_progress {s t : State} (hinv : MachineInv s) (h : step s = .next t) : ProgressInv t := by
  obtain ⟨hi, -, hs⟩ | ⟨p, rest, e, -, -, -, hs⟩ | ⟨p, rest, i, -, -, -, hs⟩ | ⟨hbusy, hs⟩ := step_cases s <;>
    rw [hs] at h
  · obtain rfl := Host.Outcome.next.inj h
    exact .of_idle hi
  · obtain rfl := Host.Outcome.next.inj h
    exact .of_idle rfl
  · exact exec_progress (s := { s with commands := rest }) hinv.fb_wf h
  · obtain hst | hst | ⟨hi, hr⟩ := answer_cases s
    · obtain rfl := Host.Outcome.next.inj ((step_iExec hst).symm.trans (hs.trans h))
      exact .of_idle (initExec_st s)
    · exact refreshExec_progress hst hinv ((step_rExec hst).symm.trans (hs.trans h))
    · exact sequencerStep_progress_of_not_exec hbusy hi hr hinv h

/-- Settles O45: what is said of FB, of the command in progress, and of what has been observed, each by its own lemma. -/
theorem stepKeepsTheInvariant : Obligations.StepKeepsTheInvariant := by
  unfold Obligations.StepKeepsTheInvariant
  intro s t hinv h
  obtain ⟨hsequencer, hclear, hrange, hsent, hshown⟩ := step_progress hinv h
  exact {
    fb_wf := step_fb_wf hinv.fb_wf h
    disp_wf := step_disp_wf hinv h
    sequencer := hsequencer
    init_clear := hclear
    page_range := hrange
    pages_sent := hsent
    log_events := by rw [step_log h, step_logOf h, hinv.log_events]
    boot_fresh := step_boot_fresh hinv h
    boot_kept := step_boot_kept hinv h
    pages_shown := hshown }

/-! ### No stop, and back to IDLE (R168, R176) -/

theorem initCmds_next {s : State} (hk : s.k ≤ Config.initLength) : ∃ t, initCmds s = .next t := by
  obtain hlt | heq := hk.lt_or_eq
  · exact ⟨_, initCmds_byte (List.getElem?_eq_getElem hlt)⟩
  · exact ⟨_, initCmds_done heq⟩

theorem refreshData_next {s : State} (hpg : s.pg < Config.pageCount) (hcol : s.col ≤ Config.width) :
    ∃ t, refreshData s = .next t := by
  obtain hlt | heq := hcol.lt_or_eq
  · exact ⟨_, refreshData_cell hpg hlt⟩
  · exact ⟨_, refreshData_done heq⟩

/-- The ranges of K, PG and COL leave the sequencer a row in every state (R168). -/
theorem sequencerStep_next {s : State} (hinv : MachineInv s) : ∃ t, sequencerStep s = .next t := by
  have hpage := hinv.page_range
  have hseq := hinv.sequencer
  cases hst : s.st <;> simp only [sequencerStep, hst] <;> simp only [sequencerInv, hst] at hseq
  case iCmds => exact initCmds_next hseq.1
  case rPageCmd => exact ⟨_, refreshPageCmd_of_page (hpage (by rw [hst]; rfl))⟩
  case rData => exact refreshData_next (hpage (by rw [hst]; rfl)) hseq.1
  case rExec => exact refreshExec_next (hpage (by rw [hst]; rfl))
  all_goals exact ⟨_, rfl⟩

/-- Settles O46: no command stops, and the sequencer has a row. -/
theorem invariantExcludesEveryStop : Obligations.InvariantExcludesEveryStop := by
  unfold Obligations.InvariantExcludesEveryStop
  intro s hinv
  obtain ⟨-, -, hs⟩ | ⟨p, rest, e, -, -, -, hs⟩ | ⟨p, rest, i, -, -, -, hs⟩ | ⟨-, hs⟩ := step_cases s <;> rw [hs]
  · exact ⟨_, rfl⟩
  · exact ⟨_, rfl⟩
  · exact exec_next i _
  · exact sequencerStep_next hinv

/-- The steps after those of page PG that a REFRESH may still take. -/
def laterPages (s : State) : Nat := (Config.pageCount - 1 - s.pg) * (Config.width + 8)

/-- The most steps the command in progress may still take (R176; 42_init_protocol.md R155). -/
def stepsLeft (s : State) : Nat :=
  match s.st with
  | .idle => 0
  | .iStart => Config.initLength + 6
  | .iAddr => Config.initLength + 5
  | .iMark => Config.initLength + 4
  | .iCmds => Config.initLength - s.k + 3
  | .iStop => 2
  | .iExec => 1
  | .rStart => laterPages s + (Config.width + 8)
  | .rAddr => laterPages s + (Config.width + 7)
  | .rMarkCmd => laterPages s + (Config.width + 6)
  | .rPageCmd => laterPages s + (Config.width + 5)
  | .rMarkData => laterPages s + (Config.width + 4)
  | .rData => laterPages s + (Config.width - s.col + 3)
  | .rStop => laterPages s + 2
  | .rExec => laterPages s + 1

theorem stepsLeft_of_idle {s : State} (hst : s.st = .idle) : stepsLeft s = 0 := by
  simp only [stepsLeft, hst]

theorem stepsLeft_pos {s : State} (hbusy : s.st ≠ .idle) : 0 < stepsLeft s := by
  cases hst : s.st <;> simp only [stepsLeft, hst]
  case idle => exact absurd hst hbusy
  all_goals omega

/-- Before the last page there is a page to go. -/
theorem laterPages_more {s t : State} (hmore : s.pg < Config.pageCount - 1) (hpg : t.pg = s.pg + 1) :
    laterPages s = laterPages t + (Config.width + 8) := by
  rw [laterPages, laterPages, hpg, ← Nat.succ_mul]
  congr 1
  omega

/-- Every row of the sequencer brings the end of the command nearer. -/
theorem sequencerStep_stepsLeft {s t : State} (hbusy : s.st ≠ .idle) (h : sequencerStep s = .next t) :
    stepsLeft t < stepsLeft s := by
  obtain ⟨fb, st, pg, col, k, txn, commands, answers, answerIndex, log, events, responses, boot, disp, freeIndex⟩ := s
  cases st with
  | idle => exact absurd rfl hbusy
  | iCmds =>
    obtain ⟨hk, rfl⟩ | ⟨-, rfl⟩ := initCmds_cases h
    · have hk : k < Config.initLength := hk
      show Config.initLength - (k + 1) + 3 < Config.initLength - k + 3
      omega
    · exact Nat.le_add_left _ _
  | rPageCmd =>
    obtain ⟨-, rfl⟩ := refreshPageCmd_cases h
    exact Nat.lt_succ_self _
  | rData =>
    obtain ⟨⟨-, hcol⟩, rfl⟩ | ⟨-, rfl⟩ := refreshData_cases h
    · have hcol : col < Config.width := hcol
      have hless : Config.width - (col + 1) + 3 < Config.width - col + 3 := by omega
      exact Nat.add_lt_add_left hless _
    · exact Nat.add_lt_add_left (Nat.le_add_left 3 _) _
  | iExec =>
    obtain rfl := Host.Outcome.next.inj h
    rw [stepsLeft_of_idle (initExec_st _)]
    exact stepsLeft_pos hbusy
  | rExec =>
    obtain ⟨-, hmore, rfl⟩ | ⟨-, -, rfl⟩ | ⟨e, -, rfl⟩ := refreshExec_cases h
    · exact Nat.lt_succ_of_le (laterPages_more hmore rfl).ge
    · exact stepsLeft_pos hbusy
    · exact stepsLeft_pos hbusy
  | _ =>
    obtain rfl := Host.Outcome.next.inj h
    exact Nat.lt_succ_self _

/-- No command takes longer than a whole REFRESH or a whole INIT. -/
theorem stepsLeft_le (s : State) :
    stepsLeft s ≤ max (1 + Config.pageCount * (Config.width + 8)) (Config.initLength + 7) := by
  have hlater : laterPages s + (Config.width + 8) ≤ Config.pageCount * (Config.width + 8) := by
    rw [laterPages, ← Nat.succ_mul]
    have hpages : 1 ≤ Config.pageCount := by decide
    exact Nat.mul_le_mul_right _ (by omega)
  unfold stepsLeft
  split <;> omega

/-- From the invariant IDLE is reached within the steps left. -/
theorem run_idle_of_stepsLeft {s : State} {m : Nat} (hinv : MachineInv s) (hm : stepsLeft s ≤ m) :
    ∃ n t, n ≤ m ∧ run n s = .next t ∧ t.st = .idle := by
  induction m generalizing s with
  | zero =>
    by_cases hst : s.st = .idle
    · exact ⟨0, s, le_rfl, rfl, hst⟩
    · exact absurd (stepsLeft_pos hst) (by omega)
  | succ m ih =>
    by_cases hst : s.st = .idle
    · exact ⟨0, s, Nat.zero_le _, rfl, hst⟩
    · obtain ⟨s', hs'⟩ := invariantExcludesEveryStop s hinv
      have hless : stepsLeft s' < stepsLeft s := sequencerStep_stepsLeft hst ((step_of_busy hst).symm.trans hs')
      obtain ⟨n, t, hn, hrun, hidle⟩ := ih (stepKeepsTheInvariant s s' hinv hs') (by omega)
      exact ⟨n + 1, t, Nat.succ_le_succ hn, by rw [run, hs', andThen_next, hrun], hidle⟩

/-- Settles O47: by induction on the steps left. -/
theorem everyCommandReturnsToIdle : Obligations.EveryCommandReturnsToIdle := by
  unfold Obligations.EveryCommandReturnsToIdle
  intro s hinv
  obtain ⟨n, t, hn, hrun, hidle⟩ := run_idle_of_stepsLeft hinv le_rfl
  exact ⟨n, t, hn.trans (stepsLeft_le s), hrun, hidle⟩

end Sys2Proof.Machine
end

section
/-! Errors: every command answers a next state, `raise` ends the command and does nothing else, and which operands of each
command are out of range (60_exceptions.md R200, R201, R206). -/

namespace Sys2Proof.Machine

/-- Settles O9: a command starts INIT, starts REFRESH or is over in one step, and each of these is a next state. -/
theorem everyCommandAnswersNext : Obligations.EveryCommandAnswersNext := by
  unfold Obligations.EveryCommandAnswersNext
  exact exec_next

/-- Settles O27: the two updates of `raise`, and the packet of an error. -/
theorem raiseEndsTheCommand : Obligations.RaiseEndsTheCommand := by
  unfold Obligations.RaiseEndsTheCommand
  exact fun _ _ => ⟨rfl, rfl⟩

/-! ### CoordinateOutOfRange, exactly (R201) -/

/-- Success is never taken for an error: the last response tells them apart. -/
theorem respond_ne_raise (v : Option Byte) (fb' : Memory) (e : ErrorKind) (s : State) :
    respond v { s with fb := fb' } ≠ raise e s := by
  intro h
  have hresponses : s.responses ++ [Response.ok v] = s.responses ++ [.error e] := congrArg State.responses h
  simp at hresponses

/-- An outcome that is success where `inRange` holds and the error elsewhere is the error exactly where `inRange` fails. -/
theorem eq_raise_iff_not {outcome : Host.Outcome State Fault Refusal} {inRange : Prop} {e : ErrorKind} {s : State}
    (hin : inRange → ∃ v fb', outcome = .next (respond v { s with fb := fb' }))
    (hout : ¬ inRange → outcome = .next (raise e s)) : outcome = .next (raise e s) ↔ ¬ inRange := by
  refine ⟨fun hraise hrange => ?_, hout⟩
  obtain ⟨v, fb', hok⟩ := hin hrange
  exact respond_ne_raise v fb' e s (Host.Outcome.next.inj (hok.symm.trans hraise))

theorem drawPixels_eq_raise_iff (pixels : List (Nat × Nat)) (on : Bool) (s : State) :
    drawPixels pixels on s = .next (raise .coordinateOutOfRange s) ↔ ¬ AllInRangePixel pixels := by
  refine eq_raise_iff_not (fun h => ?_) fun h => drawPixels_of_not_inRange h on s
  obtain ⟨fb', hnext, -⟩ := drawPixels_next_of_inRange h on s
  exact ⟨none, fb', hnext⟩

theorem execDrawPixel_eq_raise_iff (x y : Nat) (on : Bool) (s : State) :
    execDrawPixel x y on s = .next (raise .coordinateOutOfRange s) ↔ ¬ InRangePixel x y :=
  eq_raise_iff_not (fun h => ⟨_, _, execDrawPixel_of_inRange h on s⟩) fun h => execDrawPixel_of_not_inRange h on s

theorem execDrawText_eq_raise_iff (row column : Nat) (chars : List Byte) (on : Bool) (s : State) :
    execDrawText row column chars on s = .next (raise .coordinateOutOfRange s) ↔
      ¬ AllInRangeCell (textCells row (column * Config.glyphWidth) chars on) :=
  eq_raise_iff_not (fun h => ⟨_, _, execDrawText_next_of_inRange h s⟩) fun h => execDrawText_of_not_inRange h s

theorem execReadCell_eq_raise_iff (p c : Nat) (s : State) :
    execReadCell p c s = .next (raise .coordinateOutOfRange s) ↔ ¬ InRangeCell p c :=
  eq_raise_iff_not (fun h => ⟨_, s.fb, execReadCell_of_inRange h s⟩) fun h => execReadCell_of_not_inRange h s

/-- Settles O28: a command raises the error exactly when its set is not all in range, and for each command that is a condition
on its operands. -/
theorem outOfRangeConditions : Obligations.OutOfRangeConditions := by
  unfold Obligations.OutOfRangeConditions
  intro s
  refine ⟨?pixel, ?hline, ?rect, ?text, ?readCell, raise_fb _ s⟩
  case pixel =>
    intro x y on
    have hcondition : ¬ InRangePixel x y ↔ Config.width ≤ x ∨ Config.height ≤ y := by omega
    exact (execDrawPixel_eq_raise_iff x y on s).trans hcondition
  case hline =>
    intro x y length on
    refine (drawPixels_eq_raise_iff (hlinePixels x y length) on s).trans ?_
    rw [allInRangePixel_hline]
    omega
  case rect =>
    intro x y width height on filled
    refine (drawPixels_eq_raise_iff (rectPixels x y width height filled) on s).trans ?_
    rw [allInRangePixel_rect]
    omega
  case text =>
    intro row column chars on
    refine (execDrawText_eq_raise_iff row column chars on s).trans ?_
    rw [allInRangeCell_text, ← List.length_eq_zero_iff]
    omega
  case readCell =>
    intro p c
    have hcondition : ¬ InRangeCell p c ↔ Config.pageCount ≤ p ∨ Config.width ≤ c := by omega
    exact (execReadCell_eq_raise_iff p c s).trans hcondition

end Sys2Proof.Machine
end
